-- ==== Sys2Proof/Word.lean ====
section
/-! DEFINITION. Words of the PXU: the 8-bit byte of the buffer (00_scope R7, 20_memory R50) and the 32-bit word
of the registers and of the command word (00_scope R7, 10_state R20, 30_encoding R80). Addresses, indices and
lengths that the spec treats as natural numbers (20_memory R66) are `Nat`. -/

namespace Sys2Proof

/-- The unit of the buffer's addressing, 8 bits. -/
abbrev Byte := BitVec 8

/-- A register or a command word, 32 bits. -/
abbrev Word := BitVec 32

end Sys2Proof
end

