-- ==== Sys2Proof/Config.lean ====
section
/-! DEFINITION. What an implementation fixes. The one open parameter of the spec is CAP, the capacity of the buffer
memory in bytes, 0 ≤ CAP ≤ 2^32 − 1, "a model argument" (00_scope R7, 92 D32). The model takes it as a field of
State that no step changes (log entry 1), so that a statement about every state holds for every CAP; this file
names the value that `State.reset` takes. The instruction set leaves no result undefined, so there is no free
value. -/

namespace Sys2Proof

/-- The capacity `State.reset` takes: the largest the spec allows (DESIGN CHOICE, log entry 1, unsafe for a claim
about a run from `State.reset` only). -/
def Config.resetCapacity : Word := 0xFFFFFFFF#32

end Sys2Proof
end

