-- ==== Sys2Proof/Syntax.lean ====
section
/-! DEFINITION. The commands of the PXU as syntax: one constructor per row of spec/opcode_table.json (30_encoding
R86, 26 rows). An operand is the natural number its field holds (30_encoding R87: every field is an unsigned
integer taken straight from its bits). Words of no row (illegal words, R88; APPLY words at an unnamed depth, R173)
are no instruction: `Decode` rejects them by name. -/

namespace Sys2Proof

/-- The five operations of an APPLY command (41_unpack_dispatch R124). -/
inductive Operation where
  | filter
  | darken
  | gray
  | white
  | black
deriving DecidableEq, Repr

/-- The commands. `ch` is the field CH, `depth` the field DEPTH (which only INSPECT leaves free, 30_encoding R90). -/
inductive Instr where
  /-- INSPECT: read the header fields (40_header_inspect R110). -/
  | inspect (ch depth : Nat)
  /-- FILTER.4 (42_depth4 R141). -/
  | filter4 (ch : Nat)
  /-- DARKEN.4 (42_depth4 R142). -/
  | darken4 (ch : Nat)
  /-- GRAY.4 (42_depth4 R143). -/
  | gray4 (ch : Nat)
  /-- WHITE.4 (42_depth4 R143). -/
  | white4 (ch : Nat)
  /-- BLACK.4 (42_depth4 R143). -/
  | black4 (ch : Nat)
  /-- FILTER.8 (45_unsupported_depths R170). -/
  | filter8 (ch : Nat)
  /-- DARKEN.8 (45_unsupported_depths R170). -/
  | darken8 (ch : Nat)
  /-- GRAY.8 (45_unsupported_depths R170). -/
  | gray8 (ch : Nat)
  /-- WHITE.8 (45_unsupported_depths R170). -/
  | white8 (ch : Nat)
  /-- BLACK.8 (45_unsupported_depths R170). -/
  | black8 (ch : Nat)
  /-- FILTER.16 (45_unsupported_depths R171). -/
  | filter16 (ch : Nat)
  /-- DARKEN.16 (45_unsupported_depths R171). -/
  | darken16 (ch : Nat)
  /-- GRAY.16 (45_unsupported_depths R171). -/
  | gray16 (ch : Nat)
  /-- WHITE.16 (45_unsupported_depths R171). -/
  | white16 (ch : Nat)
  /-- BLACK.16 (45_unsupported_depths R171). -/
  | black16 (ch : Nat)
  /-- FILTER.24 (43_depth24_channel R151). -/
  | filter24 (ch : Nat)
  /-- DARKEN.24 (43_depth24_channel R152). -/
  | darken24 (ch : Nat)
  /-- GRAY.24 (44_depth24_whole R160). -/
  | gray24 (ch : Nat)
  /-- WHITE.24 (44_depth24_whole R161). -/
  | white24 (ch : Nat)
  /-- BLACK.24 (44_depth24_whole R162). -/
  | black24 (ch : Nat)
  /-- FILTER.32 (45_unsupported_depths R172). -/
  | filter32 (ch : Nat)
  /-- DARKEN.32 (45_unsupported_depths R172). -/
  | darken32 (ch : Nat)
  /-- GRAY.32 (45_unsupported_depths R172). -/
  | gray32 (ch : Nat)
  /-- WHITE.32 (45_unsupported_depths R172). -/
  | white32 (ch : Nat)
  /-- BLACK.32 (45_unsupported_depths R172). -/
  | black32 (ch : Nat)
deriving DecidableEq, Repr

end Sys2Proof
end

