-- ==== Sys2Proof/WellFormed.lean ====
section
/-! DEFINITION. When a command is well formed: each operand fits its field of the command word, CH 4 bits and DEPTH
16 bits (30_encoding R80). Which channels a depth has is no question of form: a word with CH = 9 is well formed and
raises InvalidChannel when it runs (41_unpack_dispatch R127). -/

namespace Sys2Proof

/-- CH fits its 4-bit field (30_encoding R82). -/
abbrev Instr.chFits (ch : Nat) : Prop := ch < 16

/-- DEPTH fits its 16-bit field (30_encoding R83). -/
abbrev Instr.depthFits (depth : Nat) : Prop := depth < 65536

/-- The operand CH of a command. -/
def Instr.ch : Instr → Nat
  | .inspect ch _ => ch
  | .filter4 ch => ch
  | .darken4 ch => ch
  | .gray4 ch => ch
  | .white4 ch => ch
  | .black4 ch => ch
  | .filter8 ch => ch
  | .darken8 ch => ch
  | .gray8 ch => ch
  | .white8 ch => ch
  | .black8 ch => ch
  | .filter16 ch => ch
  | .darken16 ch => ch
  | .gray16 ch => ch
  | .white16 ch => ch
  | .black16 ch => ch
  | .filter24 ch => ch
  | .darken24 ch => ch
  | .gray24 ch => ch
  | .white24 ch => ch
  | .black24 ch => ch
  | .filter32 ch => ch
  | .darken32 ch => ch
  | .gray32 ch => ch
  | .white32 ch => ch
  | .black32 ch => ch

/-- The DEPTH field of a command: free for INSPECT, fixed by the row for every APPLY command (30_encoding R86). -/
def Instr.depth : Instr → Nat
  | .inspect _ depth => depth
  | .filter4 _ => 4
  | .darken4 _ => 4
  | .gray4 _ => 4
  | .white4 _ => 4
  | .black4 _ => 4
  | .filter8 _ => 8
  | .darken8 _ => 8
  | .gray8 _ => 8
  | .white8 _ => 8
  | .black8 _ => 8
  | .filter16 _ => 16
  | .darken16 _ => 16
  | .gray16 _ => 16
  | .white16 _ => 16
  | .black16 _ => 16
  | .filter24 _ => 24
  | .darken24 _ => 24
  | .gray24 _ => 24
  | .white24 _ => 24
  | .black24 _ => 24
  | .filter32 _ => 32
  | .darken32 _ => 32
  | .gray32 _ => 32
  | .white32 _ => 32
  | .black32 _ => 32

/-- The command's operands fit their fields. -/
def Instr.wf (i : Instr) : Bool := decide (Instr.chFits i.ch) && decide (Instr.depthFits i.depth)

end Sys2Proof
end

