-- ==== Sys2Proof/Decode.lean ====
section
/-! DEFINITION. The command word, format C (30_encoding R80 to R94): its fields, the decoder, total on every 32-bit
word and rejecting by name, the encoder, and the opcode table as rows of mask and match (R86). A command is never
laid out in bytes: it is one 32-bit write to CMD (R80). -/

namespace Sys2Proof

/-! ### Fields of the word (30_encoding R80, R87) -/

/-- OP, bits [3:0]. -/
def opField (w : Word) : Nat := w.toNat % 16

/-- CH, bits [7:4]. -/
def chField (w : Word) : Nat := w.toNat / 16 % 16

/-- RSV, bits [15:8]. -/
def rsvField (w : Word) : Nat := w.toNat / 256 % 256

/-- DEPTH, bits [31:16]. -/
def depthField (w : Word) : Nat := w.toNat / 65536

/-- The word with RSV = 0: `DEPTH * 65536 + CH * 16 + OP`. -/
def formatC (depth ch op : Nat) : Word := BitVec.ofNat 32 (depth * 65536 + ch * 16 + op)

/-- The operation of an APPLY word; none for INSPECT's code 5 and the reserved codes (30_encoding R81). -/
def Operation.ofCode (op : Nat) : Option Operation :=
  if op = 0 then some .filter
  else if op = 1 then some .darken
  else if op = 2 then some .gray
  else if op = 3 then some .white
  else if op = 4 then some .black
  else none

/-- The OP code of an operation (30_encoding R81). -/
def Operation.code : Operation → Nat
  | .filter => 0
  | .darken => 1
  | .gray => 2
  | .white => 3
  | .black => 4

/-- The OP code of INSPECT (30_encoding R81). -/
def inspectCode : Nat := 5

/-! ### The decoder -/

/-- Why a word is no instruction of the table. Both reasons have a defined outcome when the word is written to CMD:
the condition of the same name is raised. -/
inductive DecodeReject where
  /-- RSV ≠ 0 or OP in 6 to 15 (30_encoding R88). -/
  | illegalCommand
  /-- An APPLY word whose DEPTH is none of 4, 8, 16, 24, 32 (45_unsupported_depths R173). -/
  | unsupportedDepth
deriving DecidableEq, Repr

/-- The rows of DEPTH 4 (30_encoding R86). -/
def decodeDepth4 (op : Operation) (ch : Nat) : Instr :=
  match op with
  | .filter => .filter4 ch
  | .darken => .darken4 ch
  | .gray => .gray4 ch
  | .white => .white4 ch
  | .black => .black4 ch

/-- The rows of DEPTH 8 (30_encoding R86). -/
def decodeDepth8 (op : Operation) (ch : Nat) : Instr :=
  match op with
  | .filter => .filter8 ch
  | .darken => .darken8 ch
  | .gray => .gray8 ch
  | .white => .white8 ch
  | .black => .black8 ch

/-- The rows of DEPTH 16 (30_encoding R86). -/
def decodeDepth16 (op : Operation) (ch : Nat) : Instr :=
  match op with
  | .filter => .filter16 ch
  | .darken => .darken16 ch
  | .gray => .gray16 ch
  | .white => .white16 ch
  | .black => .black16 ch

/-- The rows of DEPTH 24 (30_encoding R86). -/
def decodeDepth24 (op : Operation) (ch : Nat) : Instr :=
  match op with
  | .filter => .filter24 ch
  | .darken => .darken24 ch
  | .gray => .gray24 ch
  | .white => .white24 ch
  | .black => .black24 ch

/-- The rows of DEPTH 32 (30_encoding R86). -/
def decodeDepth32 (op : Operation) (ch : Nat) : Instr :=
  match op with
  | .filter => .filter32 ch
  | .darken => .darken32 ch
  | .gray => .gray32 ch
  | .white => .white32 ch
  | .black => .black32 ch

/-- The row of an APPLY word: by DEPTH, then by operation (30_encoding R86). -/
def decodeApply (depth : Nat) (op : Operation) (ch : Nat) : Except DecodeReject Instr :=
  if depth = 4 then .ok (decodeDepth4 op ch)
  else if depth = 8 then .ok (decodeDepth8 op ch)
  else if depth = 16 then .ok (decodeDepth16 op ch)
  else if depth = 24 then .ok (decodeDepth24 op ch)
  else if depth = 32 then .ok (decodeDepth32 op ch)
  else .error .unsupportedDepth

/-- The instruction a word encodes, lines 1 to 3 of 30_encoding R85. (Lines 4 to 7, which look at the operands and
at LEN, are the instruction's meaning.) -/
def decode (w : Word) : Except DecodeReject Instr :=
  if rsvField w ≠ 0 then .error .illegalCommand
  else if opField w = inspectCode then .ok (.inspect (chField w) (depthField w))
  else match Operation.ofCode (opField w) with
    | some op => decodeApply (depthField w) op (chField w)
    | none => .error .illegalCommand

/-- What the decoder reads from a table row's bits: a command is one 32-bit word, and the bits above `nbits` are 0. -/
def decodeTableWord (nbits w : Nat) : Option Instr :=
  match decode (BitVec.ofNat 32 (w % 2 ^ nbits)) with
  | .ok i => some i
  | .error _ => none

/-! ### The encoder -/

/-- The OP field of a command (30_encoding R81, R86). -/
def Instr.opCode : Instr → Nat
  | .inspect _ _ => inspectCode
  | .filter4 _ => Operation.code .filter
  | .darken4 _ => Operation.code .darken
  | .gray4 _ => Operation.code .gray
  | .white4 _ => Operation.code .white
  | .black4 _ => Operation.code .black
  | .filter8 _ => Operation.code .filter
  | .darken8 _ => Operation.code .darken
  | .gray8 _ => Operation.code .gray
  | .white8 _ => Operation.code .white
  | .black8 _ => Operation.code .black
  | .filter16 _ => Operation.code .filter
  | .darken16 _ => Operation.code .darken
  | .gray16 _ => Operation.code .gray
  | .white16 _ => Operation.code .white
  | .black16 _ => Operation.code .black
  | .filter24 _ => Operation.code .filter
  | .darken24 _ => Operation.code .darken
  | .gray24 _ => Operation.code .gray
  | .white24 _ => Operation.code .white
  | .black24 _ => Operation.code .black
  | .filter32 _ => Operation.code .filter
  | .darken32 _ => Operation.code .darken
  | .gray32 _ => Operation.code .gray
  | .white32 _ => Operation.code .white
  | .black32 _ => Operation.code .black

/-- The command word of an instruction, RSV = 0 (30_encoding R80, R92, R93). -/
def encode (i : Instr) : Word := formatC i.depth i.ch i.opCode

/-! ### The opcode table (30_encoding R86) -/

/-- One row of spec/opcode_table.json: a word matches it when its bits under `mask` are `bits`. -/
structure OpcodeRow where
  mnemonic : String
  mask : Word
  bits : Word
deriving DecidableEq, Repr

/-- The word matches the row. -/
def OpcodeRow.matches (r : OpcodeRow) (w : Word) : Bool := w &&& r.mask == r.bits

/-- No word matches both rows: some bit fixed by both differs. -/
def OpcodeRow.apart (r q : OpcodeRow) : Bool := (r.bits ^^^ q.bits) &&& (r.mask &&& q.mask) != 0#32

/-- The mask of an APPLY row: DEPTH, RSV and OP fixed, CH free. -/
def applyMask : Word := 0xFFFFFF0F#32

/-- INSPECT's row: RSV and OP fixed, CH and DEPTH free. -/
def inspectRow : OpcodeRow := ⟨"INSPECT", 0x0000FF0F#32, 0x00000005#32⟩

/-- The rows of DEPTH 4. -/
def rowsDepth4 : List OpcodeRow :=
  [⟨"FILTER.4", applyMask, 0x00040000#32⟩,
   ⟨"DARKEN.4", applyMask, 0x00040001#32⟩,
   ⟨"GRAY.4", applyMask, 0x00040002#32⟩,
   ⟨"WHITE.4", applyMask, 0x00040003#32⟩,
   ⟨"BLACK.4", applyMask, 0x00040004#32⟩]

/-- The rows of DEPTH 8. -/
def rowsDepth8 : List OpcodeRow :=
  [⟨"FILTER.8", applyMask, 0x00080000#32⟩,
   ⟨"DARKEN.8", applyMask, 0x00080001#32⟩,
   ⟨"GRAY.8", applyMask, 0x00080002#32⟩,
   ⟨"WHITE.8", applyMask, 0x00080003#32⟩,
   ⟨"BLACK.8", applyMask, 0x00080004#32⟩]

/-- The rows of DEPTH 16. -/
def rowsDepth16 : List OpcodeRow :=
  [⟨"FILTER.16", applyMask, 0x00100000#32⟩,
   ⟨"DARKEN.16", applyMask, 0x00100001#32⟩,
   ⟨"GRAY.16", applyMask, 0x00100002#32⟩,
   ⟨"WHITE.16", applyMask, 0x00100003#32⟩,
   ⟨"BLACK.16", applyMask, 0x00100004#32⟩]

/-- The rows of DEPTH 24. -/
def rowsDepth24 : List OpcodeRow :=
  [⟨"FILTER.24", applyMask, 0x00180000#32⟩,
   ⟨"DARKEN.24", applyMask, 0x00180001#32⟩,
   ⟨"GRAY.24", applyMask, 0x00180002#32⟩,
   ⟨"WHITE.24", applyMask, 0x00180003#32⟩,
   ⟨"BLACK.24", applyMask, 0x00180004#32⟩]

/-- The rows of DEPTH 32. -/
def rowsDepth32 : List OpcodeRow :=
  [⟨"FILTER.32", applyMask, 0x00200000#32⟩,
   ⟨"DARKEN.32", applyMask, 0x00200001#32⟩,
   ⟨"GRAY.32", applyMask, 0x00200002#32⟩,
   ⟨"WHITE.32", applyMask, 0x00200003#32⟩,
   ⟨"BLACK.32", applyMask, 0x00200004#32⟩]

/-- The whole table, 26 rows. -/
def opcodeTable : List OpcodeRow :=
  inspectRow :: (rowsDepth4 ++ rowsDepth8 ++ rowsDepth16 ++ rowsDepth24 ++ rowsDepth32)

end Sys2Proof
end

