-- ==== Sys2Proof/Machine/State.lean ====
section
/-! DEFINITION. The state of the PXU as plain data: the buffer memory BUF and the eight registers of 10_state R20
and R29, the parameter CAP (00_scope R7), the `done` output (10_state R36), and the model's own picture of the host:
its accesses still to come and the answers it has got (log entry 5). The values a running command samples (10_state
R34) and the walk index (R27) exist inside one step only and are no fields. -/

namespace Sys2Proof.Machine

/-- STATUS.CODE, the outcome of the last completed command: exactly six values (10_state R31, 93 U9; 60_exceptions
R180). All but `ok` are the conditions a command can raise; raising one is a next state, never a stop. -/
inductive Code where
  | ok
  | truncatedHeader
  | unsupportedDepth
  | invalidChannel
  | unsupportedOperation
  | illegalCommand
deriving DecidableEq, Repr

/-- STATUS: its two fields (10_state R31). The 32-bit word the host reads, reserved bits zero, is `Status.word` in
Machine/Flags.lean (log entry 16). -/
structure Status where
  code : Code
  busy : Bool
deriving DecidableEq, Repr

/-- The width of a host access to a register; the spec defines only 32-bit ones (10_state R38). -/
inductive AccessSize where
  | byte
  | half
  | word
deriving DecidableEq, Repr

/-- One access of the host, the outside world (10_state R36): to a register at a byte offset, to a byte of BUF, or
the reset input (70_reset_and_hazards R210). -/
inductive HostMove where
  | regWrite (offset : Nat) (size : AccessSize) (value : Word)
  | regRead (offset : Nat) (size : AccessSize)
  | bufWrite (addr : Nat) (value : Byte)
  | bufRead (addr : Nat)
  | reset
deriving DecidableEq, Repr

/-- What a read of the host returned. -/
inductive Answer where
  | register (value : Word)
  | byte (value : Byte)
deriving DecidableEq, Repr

/-- BUF as data: (address, byte) pairs, addresses strictly rising. An unlisted address has no value (10_state R37,
93 U3; log entry 2), so every listed pair differs from what an unlisted address reads as. -/
abbrev Memory := List Host.Cell

/-- The state between two steps. -/
structure State where
  /-- CAP, the parameter of 00_scope R7: constant (log entry 1). -/
  cap : Word
  /-- CMD (10_state R30). -/
  cmd : Word
  /-- STATUS (10_state R31). -/
  status : Status
  /-- LEN (10_state R32). -/
  len : Word
  /-- H_SIZE (10_state R21). -/
  hSize : Word
  /-- H_OFF (10_state R22). -/
  hOff : Word
  /-- H_WIDTH (10_state R23). -/
  hWidth : Word
  /-- H_HEIGHT (10_state R24). -/
  hHeight : Word
  /-- H_BPP (10_state R25). -/
  hBpp : Word
  /-- BUF (10_state R33). -/
  buf : Memory
  /-- The `done` output: high after the step in which BUSY fell (10_state R36; log entry 15). -/
  done : Bool
  /-- The host's accesses still to come, oldest first (the model's own; log entry 5). -/
  host : List HostMove
  /-- The answers to the host's reads, oldest first (the model's own; log entry 5). -/
  seen : List Answer
deriving DecidableEq, Repr

/-- The machine stops with a fault. -/
inductive Fault where
  /-- Raised by a host access to a BUF address at or above CAP: BUF is an array of CAP bytes (10_state R33,
  20_memory R50). No command raises it. Safe: the model stops (log entry 14). -/
  | addressBeyondCapacity
deriving DecidableEq, Repr

/-- The model gives the step no meaning. -/
inductive Refusal where
  /-- An instruction without a meaning yet, by mnemonic. No arm raises it. Safe. -/
  | notModelled (mnemonic : String)
  /-- Raised by a command, or by a host read of BUF, that would read a byte nothing has written: such a byte has no
  value and a model refuses the read (10_state R37, 93 U3). Safe (log entry 2). -/
  | unwrittenByte
  /-- Raised by a command started with LEN > CAP: its effect is not specified and a model refuses it
  (70_reset_and_hazards R216, 93 U5). An illegal word is no command and never raises it. Safe (log entry 3). -/
  | lenBeyondCapacity
  /-- Raised by a host access to a register that is narrower than 32 bits or not word-aligned: not defined, a model
  refuses it (10_state R38, 93 U6). Safe (log entry 13). -/
  | registerAccessShape
deriving DecidableEq, Repr

/-- The machine after reset (10_state R37, 70_reset_and_hazards R211), for a buffer memory of `cap` bytes: all eight
registers 0, idle, no byte of BUF with a value. The host has nothing to do and has seen nothing (log entry 5). -/
def State.resetFor (cap : Word) : State where
  cap := cap
  cmd := 0#32
  status := ⟨.ok, false⟩
  len := 0#32
  hSize := 0#32
  hOff := 0#32
  hWidth := 0#32
  hHeight := 0#32
  hBpp := 0#32
  buf := []
  done := false
  host := []
  seen := []

/-- The machine after reset, with the capacity Config names (log entry 1). -/
def State.reset : State := State.resetFor Config.resetCapacity

end Sys2Proof.Machine
end

