-- ==== Sys2Proof/Machine/Flags.lean ====
section
/-! DEFINITION. The one condition code of the PXU, STATUS.CODE, as a number, and STATUS as the word the host reads
(10_state R28, R31). There are no arithmetic flags (10_state R28). -/

namespace Sys2Proof.Machine

/-- The number of a condition (60_exceptions R180). -/
def Code.number : Code → Nat
  | .ok => 0
  | .truncatedHeader => 1
  | .unsupportedDepth => 2
  | .invalidChannel => 3
  | .unsupportedOperation => 4
  | .illegalCommand => 5

/-- STATUS as a word: CODE in [3:0], BUSY in [31], [30:4] zero (10_state R31). -/
def Status.word (st : Status) : Word :=
  BitVec.ofNat 32 (st.code.number + if st.busy then 2147483648 else 0)

/-- The status while a command runs: BUSY is 1 and CODE still holds the previous outcome (10_state R31). -/
def Status.started (st : Status) : Status := { st with busy := true }

/-- The status at the end of a command: CODE written at the moment BUSY falls (10_state R31). -/
def Status.ended (code : Code) : Status := ⟨code, false⟩

/-- The condition that a word of no table row raises when it is written to CMD (30_encoding R88, R89). -/
def conditionOfReject : DecodeReject → Code
  | .illegalCommand => .illegalCommand
  | .unsupportedDepth => .unsupportedDepth

end Sys2Proof.Machine
end

