-- ==== Sys2Proof/Machine/Operands.lean ====
section
/-! DEFINITION. The operands of a command: channels, the dispatch table (41_unpack_dispatch R125), the pixel formats
with their pack and unpack, channel-extract, the nibble mask and the average (41_unpack_dispatch R120 to R123,
42_depth4 R140, 44_depth24_whole R163). -/

namespace Sys2Proof.Machine

/-! ### Channels and the dispatch table -/

/-- The channels (00_scope R12, 30_encoding R82). -/
inductive Channel where
  | blue
  | green
  | red
  | gray
deriving DecidableEq, Repr

/-- The channel an index names; 4 to 15 name none (30_encoding R82). -/
def Channel.ofIndex (ch : Nat) : Option Channel :=
  if ch = 0 then some .blue
  else if ch = 1 then some .green
  else if ch = 2 then some .red
  else if ch = 3 then some .gray
  else none

/-- The channel set of a bit depth (41_unpack_dispatch R125). -/
def channelSet (depth : Nat) : List Channel :=
  if depth = 4 then [.blue, .green, .red, .gray]
  else if depth = 24 then [.blue, .green, .red]
  else []

/-- The operations a bit depth offers (41_unpack_dispatch R125). -/
def operationSet (depth : Nat) : List Operation :=
  if depth = 4 then [.filter, .darken]
  else if depth = 24 then [.filter, .darken, .gray, .white, .black]
  else []

/-- CH names a channel of the depth (41_unpack_dispatch R127). -/
def channelValid (depth ch : Nat) : Bool :=
  match Channel.ofIndex ch with
  | some c => (channelSet depth).contains c
  | none => false

/-- The condition that the command word alone raises, if any: lines 3 to 5 of 30_encoding R85, in that order. -/
def operandCondition (depth : Nat) (op : Operation) (ch : Nat) : Option Code :=
  if depth ≠ 4 ∧ depth ≠ 24 then some .unsupportedDepth
  else if channelValid depth ch = false then some .invalidChannel
  else if (operationSet depth).contains op = false then some .unsupportedOperation
  else none

/-! ### Depth 4 -/

/-- The nibble mask `(0x0F << (4 * CH))[7:0]`, shifted in 16 bits and truncated: red and gray select no bit of the
byte (42_depth4 R140; log entry 8). -/
def mask4 (ch : Nat) : Byte := (0x000F#16 <<< (4 * ch)).setWidth 8

/-- The two nibbles of a byte, low first (41_unpack_dispatch R120). -/
def unpack4 (b : Byte) : BitVec 4 × BitVec 4 := (b.extractLsb' 0 4, b.extractLsb' 4 4)

/-- The byte `{n1, n0}` (41_unpack_dispatch R120). -/
def pack4 (n0 n1 : BitVec 4) : Byte := n1 ++ n0

/-- The nibble a channel index names; for 2 and 3 no bit is selected (41_unpack_dispatch R122). -/
def extract4 (b : Byte) (ch : Nat) : BitVec 4 := (b >>> (4 * ch)).setWidth 4

/-- FILTER.4 on one byte: clear the channel's nibble (42_depth4 R141). -/
def filterNibble (ch : Nat) (b : Byte) : Byte := b &&& ~~~ mask4 ch

/-- DARKEN.4 on one byte: set the channel's nibble (42_depth4 R142). -/
def darkenNibble (ch : Nat) (b : Byte) : Byte := b ||| mask4 ch

/-! ### Depth 24 -/

/-- A 24-bit pixel (41_unpack_dispatch R121). -/
structure Pixel where
  blue : Byte
  green : Byte
  red : Byte
deriving DecidableEq, Repr

/-- The pixel of three bytes at ascending addresses: blue, green, red (41_unpack_dispatch R121, 20_memory R54). -/
def unpack24 (g0 g1 g2 : Byte) : Pixel := ⟨g0, g1, g2⟩

/-- The three bytes of a pixel in ascending order (41_unpack_dispatch R121). -/
def pack24 (p : Pixel) : Byte × Byte × Byte := (p.blue, p.green, p.red)

/-- The byte a channel's byte index names (41_unpack_dispatch R122); an index above 2 names none. -/
def extract24 (p : Pixel) (c : Nat) : Option Byte :=
  if c = 0 then some p.blue
  else if c = 1 then some p.green
  else if c = 2 then some p.red
  else none

/-- The sum of a pixel's bytes, a natural number 0 to 765, never truncated before the division (44_depth24_whole
R163). -/
def pixelSum (p : Pixel) : Nat := p.blue.toNat + p.green.toNat + p.red.toNat

/-- The integer average, floor (44_depth24_whole R160, R163). -/
def pixelAverage (p : Pixel) : Byte := BitVec.ofNat 8 (pixelSum p / 3)

/-- The byte index of a channel at depth 24 is its CH (43_depth24_channel R150). -/
def channelByteIndex (ch : Nat) : Nat := ch

end Sys2Proof.Machine
end

