-- ==== Sys2Proof/Machine/Ops.lean ====
section
/-! DEFINITION. The shared operations: reads and writes of BUF, little-endian header reads (20_memory R53, R59), how
a command ends (`done OK` and `raise`, 00_scope R10, 60_exceptions R187), the checks before a transform
(41_unpack_dispatch R126) and the walk (41_unpack_dispatch R131). There is no return from a condition: nothing was
entered (60_exceptions R188). -/

namespace Sys2Proof.Machine

/-! ### BUF -/

/-- The byte at an address; none where nothing has written one (20_memory R58, 10_state R37; log entry 2). -/
def Memory.read : Memory → Nat → Option Byte
  | [], _ => none
  | (b, v) :: rest, a => if a = b then some v else Memory.read rest a

/-- Write one byte, keeping the addresses rising (20_memory R56, R58). -/
def Memory.write : Memory → Nat → Byte → Memory
  | [], a, v => [(a, v)]
  | (b, u) :: rest, a, v =>
    if a < b then (a, v) :: (b, u) :: rest
    else if a = b then (a, v) :: rest
    else (b, u) :: Memory.write rest a v

/-- Every address of the list lies above `lo`, and the addresses rise strictly. -/
def Memory.risingAbove : Nat → Memory → Bool
  | _, [] => true
  | lo, (a, _) :: rest => decide (lo < a) && Memory.risingAbove a rest

/-- The canonical form: addresses strictly rising. -/
def Memory.wf : Memory → Bool
  | [] => true
  | (a, _) :: rest => Memory.risingAbove a rest

/-- MemRead(a, n): the unsigned little-endian value of `n` bytes; none if one of them has no value (00_scope R10,
20_memory R53). -/
def Memory.readLE (m : Memory) (a : Nat) : Nat → Option Nat
  | 0 => some 0
  | n + 1 =>
    match m.read a, Memory.readLE m (a + 1) n with
    | some b, some rest => some (b.toNat + 256 * rest)
    | _, _ => none

/-! ### The header (20_memory R59) -/

/-- The shortest buffer whose header can be read (00_scope R7). -/
def hdrMin : Nat := 54

/-- OFS_SIZE: `file_size`, 4 bytes. -/
def ofsSize : Nat := 2

/-- OFS_OFF: `pixel_array_offset`, 4 bytes. -/
def ofsOff : Nat := 10

/-- OFS_WIDTH: `width`, 4 bytes. -/
def ofsWidth : Nat := 18

/-- OFS_HEIGHT: `height`, 4 bytes. -/
def ofsHeight : Nat := 22

/-- OFS_BPP: `bits_per_pixel`, 2 bytes. -/
def ofsBpp : Nat := 28

/-- The five header fields (00_scope R12), as natural numbers. -/
structure Header where
  size : Nat
  offset : Nat
  width : Nat
  height : Nat
  bpp : Nat
deriving DecidableEq, Repr

/-- `pixel_array_offset`, read afresh from the buffer (41_unpack_dispatch R129). -/
def readOffset (m : Memory) : Option Nat := m.readLE ofsOff 4

/-- The five fields, all or none (40_header_inspect R110). -/
def readHeader (m : Memory) : Option Header :=
  match m.readLE ofsSize 4, readOffset m, m.readLE ofsWidth 4, m.readLE ofsHeight 4, m.readLE ofsBpp 2 with
  | some size, some offset, some width, some height, some bpp => some ⟨size, offset, width, height, bpp⟩
  | _, _, _, _, _ => none

/-! ### How a command ends -/

/-- The end of a command: CODE is written, BUSY falls, `done` pulses, nothing else changes (60_exceptions R187,
10_state R31, R36). -/
def State.endCommand (s : State) (code : Code) : State :=
  { s with status := Status.ended code, done := true }

/-- `done OK` (00_scope R10). -/
def finish (s : State) : Host.Outcome State Fault Refusal := .next (s.endCommand .ok)

/-- `raise <Condition>`: taking a condition, the PXU's exception (00_scope R10, 60_exceptions R187). -/
def raise (condition : Code) (s : State) : Host.Outcome State Fault Refusal := .next (s.endCommand condition)

/-! ### The checks before a command reads the buffer -/

/-- The refusal of a command with LEN > CAP, whose effect is not specified (70_reset_and_hazards R216, 92 D32, 93 U5;
log entry 3); else the command goes on. -/
def withinCapacity (s : State) (body : Host.Outcome State Fault Refusal) : Host.Outcome State Fault Refusal :=
  if s.cap.toNat < s.len.toNat then .refused .lenBeyondCapacity else body

/-- The length check of a command that needs the header (40_header_inspect R112, line 6 of 30_encoding R85), and then
that the buffer fits the memory; then the command goes on. -/
def withLength (s : State) (body : Host.Outcome State Fault Refusal) : Host.Outcome State Fault Refusal :=
  if s.len.toNat < hdrMin then raise .truncatedHeader s else withinCapacity s body

/-- The part of an APPLY after its operand checks (lines 6 and 7 of 30_encoding R85): the length check, the one read
of the offset, the transform, `done OK`. The transform takes the offset, LEN and the buffer, and has no answer if it
would read a byte that nothing has written (93 U3). -/
def applyTransform (transform : Nat → Nat → Memory → Option Memory) (s : State) : Host.Outcome State Fault Refusal :=
  withLength s <|
    match readOffset s.buf with
    | none => .refused .unwrittenByte
    | some off =>
      match transform off s.len.toNat s.buf with
      | none => .refused .unwrittenByte
      | some buf => finish { s with buf := buf }

/-- An APPLY command (41_unpack_dispatch R126): the operand checks, then the transform. -/
def applyCommand (depth : Nat) (op : Operation) (ch : Nat) (transform : Nat → Nat → Memory → Option Memory)
    (s : State) : Host.Outcome State Fault Refusal :=
  match operandCondition depth op ch with
  | some condition => raise condition s
  | none => applyTransform transform s

/-- An APPLY command whose row offers no transform: the operand checks end it (42_depth4 R143, 45_unsupported_depths
R170 to R173). -/
def applyUnoffered (depth : Nat) (op : Operation) (ch : Nat) (s : State) : Host.Outcome State Fault Refusal :=
  match operandCondition depth op ch with
  | some condition => raise condition s
  | none => raise .unsupportedOperation s

/-! ### The walk (41_unpack_dispatch R131) -/

/-- Visit `i`, `i + stride`, … while the index is below `len`; the first argument bounds the number of visits. No
answer if a visit has none. -/
def walk (visit : Nat → Memory → Option Memory) (stride len : Nat) : Nat → Nat → Memory → Option Memory
  | 0, _, m => some m
  | fuel + 1, i, m =>
    if i < len then
      match visit i m with
      | none => none
      | some m' => walk visit stride len fuel (i + stride) m'
    else some m

/-- `for i from start to len − 1 step stride` (00_scope R10): at most `len − start` visits (70_reset_and_hazards
R219). -/
def scan (visit : Nat → Memory → Option Memory) (stride start len : Nat) (m : Memory) : Option Memory :=
  walk visit stride len (len - start) start m

/-- `BUF[i] <- f(BUF[i])`. -/
def visitModify (f : Byte → Byte) (i : Nat) (m : Memory) : Option Memory :=
  match m.read i with
  | none => none
  | some b => some (m.write i (f b))

/-- `BUF[i] <- v`; no byte is read. -/
def visitFill (v : Byte) (i : Nat) (m : Memory) : Option Memory := some (m.write i v)

/-- `if a < LEN: BUF[a] <- v`. -/
def writeBelow (len a : Nat) (v : Byte) (m : Memory) : Memory := if a < len then m.write a v else m

end Sys2Proof.Machine
end

