-- ==== Sys2Proof/Machine/Depth24.lean ====
section
/-! DEFINITION. The depth 24 commands (spec/43_depth24_channel.md, spec/44_depth24_whole.md). -/

namespace Sys2Proof.Machine

/-! ### Per channel -/

/-- One visit of DARKEN.24: zero the two bytes that follow, each only below LEN (43_depth24_channel R152). -/
def darkenVisit24 (len i : Nat) (m : Memory) : Option Memory :=
  some (writeBelow len (i + 2) 0#8 (writeBelow len (i + 1) 0#8 m))

/-- The walk of FILTER.24: from `off + c`, stride 3 (43_depth24_channel R151). -/
def filterWalk24 (ch off len : Nat) (m : Memory) : Option Memory :=
  scan (visitFill 0#8) 3 (off + channelByteIndex ch) len m

/-- The walk of DARKEN.24: from `off + c`, stride 3 (43_depth24_channel R152). -/
def darkenWalk24 (ch off len : Nat) (m : Memory) : Option Memory :=
  scan (darkenVisit24 len) 3 (off + channelByteIndex ch) len m

/-! ### Whole pixel -/

/-- Store one byte to all three places of a pixel (44_depth24_whole R160). -/
def writePixel (m : Memory) (i : Nat) (v : Byte) : Memory := ((m.write i v).write (i + 1) v).write (i + 2) v

/-- One visit of GRAY.24: the three reads come before the three writes; a partial pixel is neither read nor written
(44_depth24_whole R160, R164; log entry 9). -/
def grayVisit24 (len i : Nat) (m : Memory) : Option Memory :=
  if i + 2 < len then
    match m.read i, m.read (i + 1), m.read (i + 2) with
    | some g0, some g1, some g2 => some (writePixel m i (pixelAverage (unpack24 g0 g1 g2)))
    | _, _, _ => none
  else some m

/-- The walk of GRAY.24: stride 3 from the offset (44_depth24_whole R160). -/
def grayWalk24 (off len : Nat) (m : Memory) : Option Memory := scan (grayVisit24 len) 3 off len m

/-- The walk of WHITE.24 and BLACK.24: stride 1 from the offset (44_depth24_whole R161, R162). -/
def floodWalk24 (v : Byte) (off len : Nat) (m : Memory) : Option Memory := scan (visitFill v) 1 off len m

/-! ### The commands -/

/-- FILTER.24 (43_depth24_channel R151). -/
def execFilter24 (ch : Nat) (s : State) : Host.Outcome State Fault Refusal :=
  applyCommand 24 .filter ch (filterWalk24 ch) s

/-- DARKEN.24 (43_depth24_channel R152). -/
def execDarken24 (ch : Nat) (s : State) : Host.Outcome State Fault Refusal :=
  applyCommand 24 .darken ch (darkenWalk24 ch) s

/-- GRAY.24 (44_depth24_whole R160). -/
def execGray24 (ch : Nat) (s : State) : Host.Outcome State Fault Refusal :=
  applyCommand 24 .gray ch grayWalk24 s

/-- WHITE.24 (44_depth24_whole R161). -/
def execWhite24 (ch : Nat) (s : State) : Host.Outcome State Fault Refusal :=
  applyCommand 24 .white ch (floodWalk24 0xFF#8) s

/-- BLACK.24 (44_depth24_whole R162). -/
def execBlack24 (ch : Nat) (s : State) : Host.Outcome State Fault Refusal :=
  applyCommand 24 .black ch (floodWalk24 0x00#8) s

end Sys2Proof.Machine
end

