-- ==== Sys2Proof/Machine/Depth4.lean ====
section
/-! DEFINITION. The depth 4 commands (spec/42_depth4.md). -/

namespace Sys2Proof.Machine

/-- The walk of FILTER.4: stride 1 from the offset (42_depth4 R141). -/
def filterWalk4 (ch off len : Nat) (m : Memory) : Option Memory := scan (visitModify (filterNibble ch)) 1 off len m

/-- The walk of DARKEN.4: stride 1 from the offset (42_depth4 R142). -/
def darkenWalk4 (ch off len : Nat) (m : Memory) : Option Memory := scan (visitModify (darkenNibble ch)) 1 off len m

/-- FILTER.4 (42_depth4 R141). -/
def execFilter4 (ch : Nat) (s : State) : Host.Outcome State Fault Refusal :=
  applyCommand 4 .filter ch (filterWalk4 ch) s

/-- DARKEN.4 (42_depth4 R142). -/
def execDarken4 (ch : Nat) (s : State) : Host.Outcome State Fault Refusal :=
  applyCommand 4 .darken ch (darkenWalk4 ch) s

/-- GRAY.4: an operation the depth does not offer (42_depth4 R143). -/
def execGray4 (ch : Nat) (s : State) : Host.Outcome State Fault Refusal :=
  applyUnoffered 4 .gray ch s

/-- WHITE.4: an operation the depth does not offer (42_depth4 R143). -/
def execWhite4 (ch : Nat) (s : State) : Host.Outcome State Fault Refusal :=
  applyUnoffered 4 .white ch s

/-- BLACK.4: an operation the depth does not offer (42_depth4 R143). -/
def execBlack4 (ch : Nat) (s : State) : Host.Outcome State Fault Refusal :=
  applyUnoffered 4 .black ch s

end Sys2Proof.Machine
end

