-- ==== Sys2Proof/Machine/Inspect.lean ====
section
/-! DEFINITION. The Header Inspector (spec/40_header_inspect.md). -/

namespace Sys2Proof.Machine

/-- The header fields into the result registers, H_BPP zero-extended from 16 bits (40_header_inspect R110, R113). -/
def State.loadHeader (s : State) (h : Header) : State :=
  { s with
    hSize := BitVec.ofNat 32 h.size
    hOff := BitVec.ofNat 32 h.offset
    hWidth := BitVec.ofNat 32 h.width
    hHeight := BitVec.ofNat 32 h.height
    hBpp := BitVec.setWidth 32 (BitVec.ofNat 16 h.bpp) }

/-- INSPECT (40_header_inspect R110): CH and DEPTH are ignored (30_encoding R90), nothing but the length is checked
(R111). -/
def execInspect (_ch _depth : Nat) (s : State) : Host.Outcome State Fault Refusal :=
  withLength s <|
    match readHeader s.buf with
    | none => .refused .unwrittenByte
    | some h => finish (s.loadHeader h)

end Sys2Proof.Machine
end

