-- ==== Sys2Proof/Machine/Unsupported.lean ====
section
/-! DEFINITION. The commands at the unsupported bit depths 8, 16 and 32: UnsupportedDepth, nothing read, nothing
written (spec/45_unsupported_depths.md). -/

namespace Sys2Proof.Machine

/-- FILTER.8 (45_unsupported_depths R170). -/
def execFilter8 (ch : Nat) (s : State) : Host.Outcome State Fault Refusal :=
  applyUnoffered 8 .filter ch s

/-- DARKEN.8 (45_unsupported_depths R170). -/
def execDarken8 (ch : Nat) (s : State) : Host.Outcome State Fault Refusal :=
  applyUnoffered 8 .darken ch s

/-- GRAY.8 (45_unsupported_depths R170). -/
def execGray8 (ch : Nat) (s : State) : Host.Outcome State Fault Refusal :=
  applyUnoffered 8 .gray ch s

/-- WHITE.8 (45_unsupported_depths R170). -/
def execWhite8 (ch : Nat) (s : State) : Host.Outcome State Fault Refusal :=
  applyUnoffered 8 .white ch s

/-- BLACK.8 (45_unsupported_depths R170). -/
def execBlack8 (ch : Nat) (s : State) : Host.Outcome State Fault Refusal :=
  applyUnoffered 8 .black ch s

/-- FILTER.16 (45_unsupported_depths R171). -/
def execFilter16 (ch : Nat) (s : State) : Host.Outcome State Fault Refusal :=
  applyUnoffered 16 .filter ch s

/-- DARKEN.16 (45_unsupported_depths R171). -/
def execDarken16 (ch : Nat) (s : State) : Host.Outcome State Fault Refusal :=
  applyUnoffered 16 .darken ch s

/-- GRAY.16 (45_unsupported_depths R171). -/
def execGray16 (ch : Nat) (s : State) : Host.Outcome State Fault Refusal :=
  applyUnoffered 16 .gray ch s

/-- WHITE.16 (45_unsupported_depths R171). -/
def execWhite16 (ch : Nat) (s : State) : Host.Outcome State Fault Refusal :=
  applyUnoffered 16 .white ch s

/-- BLACK.16 (45_unsupported_depths R171). -/
def execBlack16 (ch : Nat) (s : State) : Host.Outcome State Fault Refusal :=
  applyUnoffered 16 .black ch s

/-- FILTER.32 (45_unsupported_depths R172). -/
def execFilter32 (ch : Nat) (s : State) : Host.Outcome State Fault Refusal :=
  applyUnoffered 32 .filter ch s

/-- DARKEN.32 (45_unsupported_depths R172). -/
def execDarken32 (ch : Nat) (s : State) : Host.Outcome State Fault Refusal :=
  applyUnoffered 32 .darken ch s

/-- GRAY.32 (45_unsupported_depths R172). -/
def execGray32 (ch : Nat) (s : State) : Host.Outcome State Fault Refusal :=
  applyUnoffered 32 .gray ch s

/-- WHITE.32 (45_unsupported_depths R172). -/
def execWhite32 (ch : Nat) (s : State) : Host.Outcome State Fault Refusal :=
  applyUnoffered 32 .white ch s

/-- BLACK.32 (45_unsupported_depths R172). -/
def execBlack32 (ch : Nat) (s : State) : Host.Outcome State Fault Refusal :=
  applyUnoffered 32 .black ch s

end Sys2Proof.Machine
end

