-- ==== Sys2Proof/Machine/Dispatch.lean ====
section
/-! DEFINITION. The dispatch: one arm per constructor of Instr, each one call of its meaning. -/

namespace Sys2Proof.Machine

def exec (i : Instr) (s : State) : Host.Outcome State Fault Refusal :=
  match i with
  | .inspect ch depth => Sys2Proof.Machine.execInspect ch depth s
  | .filter4 ch => Sys2Proof.Machine.execFilter4 ch s
  | .darken4 ch => Sys2Proof.Machine.execDarken4 ch s
  | .gray4 ch => Sys2Proof.Machine.execGray4 ch s
  | .white4 ch => Sys2Proof.Machine.execWhite4 ch s
  | .black4 ch => Sys2Proof.Machine.execBlack4 ch s
  | .filter8 ch => Sys2Proof.Machine.execFilter8 ch s
  | .darken8 ch => Sys2Proof.Machine.execDarken8 ch s
  | .gray8 ch => Sys2Proof.Machine.execGray8 ch s
  | .white8 ch => Sys2Proof.Machine.execWhite8 ch s
  | .black8 ch => Sys2Proof.Machine.execBlack8 ch s
  | .filter16 ch => Sys2Proof.Machine.execFilter16 ch s
  | .darken16 ch => Sys2Proof.Machine.execDarken16 ch s
  | .gray16 ch => Sys2Proof.Machine.execGray16 ch s
  | .white16 ch => Sys2Proof.Machine.execWhite16 ch s
  | .black16 ch => Sys2Proof.Machine.execBlack16 ch s
  | .filter24 ch => Sys2Proof.Machine.execFilter24 ch s
  | .darken24 ch => Sys2Proof.Machine.execDarken24 ch s
  | .gray24 ch => Sys2Proof.Machine.execGray24 ch s
  | .white24 ch => Sys2Proof.Machine.execWhite24 ch s
  | .black24 ch => Sys2Proof.Machine.execBlack24 ch s
  | .filter32 ch => Sys2Proof.Machine.execFilter32 ch s
  | .darken32 ch => Sys2Proof.Machine.execDarken32 ch s
  | .gray32 ch => Sys2Proof.Machine.execGray32 ch s
  | .white32 ch => Sys2Proof.Machine.execWhite32 ch s
  | .black32 ch => Sys2Proof.Machine.execBlack32 ch s

end Sys2Proof.Machine
end

