-- ==== Sys2Proof/Machine/Bus.lean ====
section
/-! DEFINITION. The block's interfaces (10_state R36): the register map, the start of a command by a write of CMD
(10_state R30), the host's accesses to BUF (10_state R33), the reset input (70_reset_and_hazards R210), and what one
step of the machine does. -/

namespace Sys2Proof.Machine

/-! ### Running a command -/

/-- Run the word in CMD to its end (10_state R30, R34). An illegal word encodes no command and raises IllegalCommand
before anything else is checked (30_encoding R84, R85, R88; 60_exceptions R185). Every other word is a command, an
APPLY at an unnamed depth among them (30_encoding R89, 45_unsupported_depths R173), and is refused if LEN > CAP
(70_reset_and_hazards R216; log entry 3). -/
def runCommand (s : State) : Host.Outcome State Fault Refusal :=
  match decode s.cmd with
  | .error .illegalCommand => raise (conditionOfReject .illegalCommand) s
  | .error .unsupportedDepth => withinCapacity s (raise (conditionOfReject .unsupportedDepth) s)
  | .ok i => withinCapacity s (exec i s)

/-- The write of CMD: the word is stored and BUSY rises, as one event (10_state R30, R31). -/
def State.acceptCommand (s : State) (w : Word) : State := { s with cmd := w, status := s.status.started }

/-! ### The register map (10_state R29, R38) -/

/-- Offset of CMD. -/
def cmdOffset : Nat := 0x00

/-- Offset of STATUS. -/
def statusOffset : Nat := 0x04

/-- Offset of LEN. -/
def lenOffset : Nat := 0x08

/-- Offset of H_SIZE. -/
def hSizeOffset : Nat := 0x10

/-- Offset of H_OFF. -/
def hOffOffset : Nat := 0x14

/-- Offset of H_WIDTH. -/
def hWidthOffset : Nat := 0x18

/-- Offset of H_HEIGHT. -/
def hHeightOffset : Nat := 0x1C

/-- Offset of H_BPP. -/
def hBppOffset : Nat := 0x20

/-- What the host reads at an offset; reserved offsets read 0, and so do H_BPP[31:16] (10_state R25, R29, R38). -/
def State.readRegister (s : State) (offset : Nat) : Word :=
  if offset = cmdOffset then s.cmd
  else if offset = statusOffset then s.status.word
  else if offset = lenOffset then s.len
  else if offset = hSizeOffset then s.hSize
  else if offset = hOffOffset then s.hOff
  else if offset = hWidthOffset then s.hWidth
  else if offset = hHeightOffset then s.hHeight
  else if offset = hBppOffset then s.hBpp &&& 0x0000FFFF#32
  else 0#32

/-- A host write at an offset: CMD starts a command, LEN is stored, every other write is ignored (10_state R29, R38). -/
def writeRegister (offset : Nat) (value : Word) (s : State) : Host.Outcome State Fault Refusal :=
  if offset = cmdOffset then runCommand (s.acceptCommand value)
  else if offset = lenOffset then .next { s with len := value }
  else .next s

/-- Register accesses are 32-bit and word-aligned (10_state R38). -/
def accessDefined (offset : Nat) (size : AccessSize) : Bool := size == .word && offset % 4 == 0

/-! ### One access of the host -/

/-- The host gets an answer. -/
def State.answer (s : State) (a : Answer) : State := { s with seen := s.seen ++ [a] }

/-- The host's script after one access is taken from it; `done`, a pulse, falls (log entries 5, 15). -/
def State.take (s : State) (rest : List HostMove) : State := { s with host := rest, done := false }

/-- The reset input between commands: the reset state, for the same memory; BUF's contents are unspecified after it
(10_state R37, 70_reset_and_hazards R210; log entry 7). -/
def State.afterReset (s : State) : State := { State.resetFor s.cap with host := s.host, seen := s.seen }

/-- What an access of the host does while the block is idle. -/
def hostAccess (move : HostMove) (s : State) : Host.Outcome State Fault Refusal :=
  match move with
  | .regWrite offset size value =>
    if accessDefined offset size then writeRegister offset value s else .refused .registerAccessShape
  | .regRead offset size =>
    if accessDefined offset size then .next (s.answer (.register (s.readRegister offset)))
    else .refused .registerAccessShape
  | .bufWrite addr value =>
    if addr < s.cap.toNat then .next { s with buf := s.buf.write addr value } else .fault .addressBeyondCapacity
  | .bufRead addr =>
    if addr < s.cap.toNat then
      match s.buf.read addr with
      | some b => .next (s.answer (.byte b))
      | none => .refused .unwrittenByte
    else .fault .addressBeyondCapacity
  | .reset => .next s.afterReset

/-- One step. A busy block runs its command to the end first: the host has no move until BUSY falls
(70_reset_and_hazards R215; log entries 4, 6). An idle block takes the host's next access; without one it stays as
it is, since nothing but a write of CMD starts it (60_exceptions R194). -/
def advance (s : State) : Host.Outcome State Fault Refusal :=
  if s.status.busy then runCommand (s.take s.host)
  else match s.host with
    | [] => .next (s.take [])
    | move :: rest => hostAccess move (s.take rest)

/-- The host writes the word to CMD next, the block being idle. -/
def State.offerCommand (s : State) (w : Word) : State :=
  { s with status := { s.status with busy := false }, host := .regWrite cmdOffset .word w :: s.host }

end Sys2Proof.Machine
end

