-- ==== Sys2Proof/Machine/Step.lean ====
section
/-! DEFINITION. The step, and how the host's next command is placed. The block fetches nothing from a memory
(10_state R27): its "fetch" is the host's write of CMD, so a command is placed as the host's next access, with the
block idle (log entry 5). -/

namespace Sys2Proof.Machine

def step (s : State) : Host.Outcome State Fault Refusal := advance s

def State.withFetchWord (s : State) (nbits w : Nat) : State := s.offerCommand (BitVec.ofNat 32 (w % 2 ^ nbits))

end Sys2Proof.Machine
end

