-- ==== Sys2Proof/Safety.lean ====
section
/-! DEFINITION. What counts as a safe run, in the terms the statements use: the invariant of the machine, a buffer the
host has loaded (70_reset_and_hazards R213), an access the host may make (R213, R215, R216; 10_state R38), and when an
APPLY command reaches its transform (30_encoding R85). -/

namespace Sys2Proof.Machine

/-- Every byte at an address from `lo` up to, not including, `hi` has a value. -/
abbrev Memory.Written (m : Memory) (lo hi : Nat) : Prop := ∀ a, a < hi → lo ≤ a → (m.read a).isSome = true

/-- Every listed address lies below `cap` (10_state R33: BUF has CAP bytes). -/
def Memory.below (cap : Nat) : Memory → Bool
  | [] => true
  | (a, _) :: rest => decide (a < cap) && Memory.below cap rest

/-- The invariant every step keeps: BUF in canonical form and within its capacity, H_BPP[31:16] zero (10_state R25),
and no command in flight between steps (10_state R34). -/
structure State.Inv (s : State) : Prop where
  bufCanonical : s.buf.wf = true
  bufWithinCapacity : s.buf.below s.cap.toNat = true
  bppReservedZero : s.hBpp.toNat < 65536
  idle : s.status.busy = false

/-- Steps 1 and 2 of 70_reset_and_hazards R213 are done: LEN is within the capacity, and every byte below LEN is
written. -/
abbrev State.Loaded (s : State) : Prop := s.len.toNat ≤ s.cap.toNat ∧ s.buf.Written 0 s.len.toNat

/-- The access is one the spec gives a meaning to (10_state R29, R33, R38): LEN stays within CAP
(70_reset_and_hazards R216), and every byte below LEN is written when a command is started, in whichever order LEN
and the bytes were written (R213). An illegal word starts no command (30_encoding R88) and may be written at any
time. -/
def HostMove.legal (move : HostMove) (s : State) : Prop :=
  match move with
  | .regWrite offset size value =>
    accessDefined offset size = true ∧ (offset = cmdOffset → rsvField value = 0 → opField value < 6 → s.Loaded) ∧
      (offset = lenOffset → value.toNat ≤ s.cap.toNat)
  | .regRead offset size => accessDefined offset size = true
  | .bufWrite addr _ => addr < s.cap.toNat
  | .bufRead addr => addr < s.cap.toNat ∧ (s.buf.read addr).isSome = true
  | .reset => True

/-- The header is long enough, the buffer fits the memory, and the pixel array offset reads as `off`: an APPLY with
valid operands reaches its transform (lines 6 and 7 of 30_encoding R85). -/
abbrev State.OffsetReady (s : State) (off : Nat) : Prop :=
  hdrMin ≤ s.len.toNat ∧ s.len.toNat ≤ s.cap.toNat ∧ readOffset s.buf = some off

/-- The code a word reports on a buffer of `len` bytes: the lines of 30_encoding R85 in their order, on the fields of
the word, which is the priority of 60_exceptions R186. -/
def reportedCode (w : Word) (len : Nat) : Code :=
  if rsvField w ≠ 0 ∨ 6 ≤ opField w then .illegalCommand
  else if opField w = 5 then (if len < 54 then .truncatedHeader else .ok)
  else if depthField w ≠ 4 ∧ depthField w ≠ 24 then .unsupportedDepth
  else if (depthField w = 4 ∧ 3 < chField w) ∨ (depthField w = 24 ∧ 2 < chField w) then .invalidChannel
  else if depthField w = 4 ∧ 2 ≤ opField w then .unsupportedOperation
  else if len < 54 then .truncatedHeader
  else .ok

/-- The host's next access is a write of `w` to CMD, and the block is idle (10_state R30); `rest` is what the host
does after it. -/
abbrev State.Offers (s : State) (w : Word) (rest : List HostMove) : Prop :=
  s.status.busy = false ∧ s.host = .regWrite cmdOffset .word w :: rest

/-- The state after a command that ends with `code` and changes nothing else (60_exceptions R187; `done` is the output
of 10_state R36). -/
abbrev State.endedWith (s : State) (code : Code) : State := { s with status := ⟨code, false⟩, done := true }

/-- The outcome is a next state that is idle with `code` in STATUS, while BUF and the other seven registers are those
of `s`: what 60_exceptions R187 says of a condition, and 41_unpack_dispatch R130 of a no-op. It says nothing of the
model's own fields. -/
def EndsWith (o : Host.Outcome State Fault Refusal) (s : State) (code : Code) : Prop :=
  ∃ t, o = .next t ∧ t.status = ⟨code, false⟩ ∧ t.buf = s.buf ∧ t.cmd = s.cmd ∧ t.len = s.len ∧ t.hSize = s.hSize ∧
    t.hOff = s.hOff ∧ t.hWidth = s.hWidth ∧ t.hHeight = s.hHeight ∧ t.hBpp = s.hBpp

/-- The state after a command that completes normally with a new buffer. -/
abbrev State.completedWith (s : State) (buf : Memory) : State :=
  { s with buf := buf, status := ⟨.ok, false⟩, done := true }

end Sys2Proof.Machine
end

