-- ==== Sys2Proof/Certificates/Slice0/Obligations.lean ====
section
/-! DEFINITION. The statements for the provers. Each docstring names the rules of spec/ it formalises; a clause that
rests on the model's own choice names the log entry. -/

open Sys2Proof Sys2Proof.Machine

/-! ### The command word (spec/30_encoding.md) -/

/-- Decoding the word of a well-formed instruction gives the instruction back. The round trip over all 26 rows of the table (30_encoding R80, R86, R87). -/
def Obligations.DecodeInvertsEncode : Prop :=
  ∀ i : Instr, i.wf = true → decode (encode i) = .ok i

/-- A word that decodes is the word of the instruction it decodes to. No bit of an accepted word is dropped, the free CH and DEPTH of INSPECT among them (30_encoding R80, R86). -/
def Obligations.EncodeInvertsDecode : Prop :=
  ∀ (w : Word) (i : Instr), decode w = .ok i → i.wf = true ∧ encode i = w

/-- The decoder accepts exactly the words that match a row of the opcode table. The decoder against the rows of mask and match (30_encoding R86). -/
def Obligations.DecoderAcceptsExactlyTheTableRows : Prop :=
  ∀ w : Word, (∃ i : Instr, decode w = .ok i) ↔ ∃ r ∈ opcodeTable, r.matches w = true

/-- No word matches two rows of the opcode table. "No two rows overlap" (30_encoding R86). -/
def Obligations.OpcodeRowsNeverOverlap : Prop :=
  opcodeTable.length = 26 ∧ opcodeTable.Pairwise (fun r q => ∀ w : Word, ¬(r.matches w = true ∧ q.matches w = true))

/-- Words the spec writes out decode to the instructions it names. Words written out in 30_encoding R92, R93 and 95_test_vectors. -/
def Obligations.SpecWordsDecodeAsWritten : Prop :=
  decode 0x00180010#32 = .ok (.filter24 1) ∧ decode 0x00180021#32 = .ok (.darken24 2) ∧
    decode 0x00040011#32 = .ok (.darken4 1) ∧ decode 0x00040030#32 = .ok (.filter4 3) ∧
    decode 0x00080000#32 = .ok (.filter8 0) ∧ decode 0x00100002#32 = .ok (.gray16 0) ∧
    decode 0x00200014#32 = .ok (.black32 1) ∧ decode 0xABCD00F5#32 = .ok (.inspect 15 0xABCD) ∧
    decode 0x00188000#32 = .error .illegalCommand ∧ decode 0x000C0003#32 = .error .unsupportedDepth

/-! ### The step (10_state R30, R34) -/

/-- A step at which the host writes CMD runs the decoded instruction. What the step adds around exec: the word is stored in CMD, BUSY rises, the access is taken (10_state R30, R31; log entries 4, 5, 15 for the host list and done). -/
def Obligations.StepRunsTheCommandWrittenToCmd : Prop :=
  ∀ (s : State) (w : Word) (rest : List HostMove) (i : Instr), s.Offers w rest → s.len.toNat ≤ s.cap.toNat →
    decode w = .ok i →
    step s = exec i { s with cmd := w, status := { s.status with busy := true }, host := rest, done := false }

/-- A word with RSV not 0 or OP in 6 to 15 raises IllegalCommand. R88: checked before anything else, buffer and registers unchanged, whatever LEN is. The statement says nothing of done and the host list, which are the model's (log entries 5, 15). -/
def Obligations.IllegalWordRaisesIllegalCommand : Prop :=
  ∀ (s : State) (w : Word) (rest : List HostMove), s.Offers w rest → (rsvField w ≠ 0 ∨ 6 ≤ opField w) →
    decode w = .error .illegalCommand ∧ Code.illegalCommand.number = 5 ∧
      EndsWith (step s) { s with cmd := w } .illegalCommand

/-- An APPLY word whose DEPTH is neither 4 nor 24 raises UnsupportedDepth. R182 over all 65534 depths, whatever CH is. The statement says nothing of done and the host list, which are the model's (log entries 5, 15). -/
def Obligations.DepthNeitherFourNorTwentyFourRaisesUnsupportedDepth : Prop :=
  ∀ (s : State) (w : Word) (rest : List HostMove), s.Offers w rest → s.len.toNat ≤ s.cap.toNat →
    rsvField w = 0 → opField w ≤ 4 → depthField w ≠ 4 → depthField w ≠ 24 →
    Code.unsupportedDepth.number = 2 ∧
      EndsWith (step s) { s with cmd := w } .unsupportedDepth

/-- An APPLY word at a depth the document does not name matches no table row and is rejected by name. R173: these words have no row, and must be sent to UnsupportedDepth. -/
def Obligations.UnnamedDepthMatchesNoRow : Prop :=
  ∀ w : Word, rsvField w = 0 → opField w ≤ 4 → depthField w ∉ [4, 8, 16, 24, 32] →
    (∀ r ∈ opcodeTable, r.matches w = false) ∧ decode w = .error .unsupportedDepth

/-- A command started with LEN above CAP is refused. R216 (and 92 D32, 93 U5; log entry 3). A word that encodes no command is not refused (IllegalWordRaisesIllegalCommand). -/
def Obligations.LenBeyondCapacityIsRefused : Prop :=
  ∀ (s : State) (w : Word) (rest : List HostMove), s.Offers w rest → s.cap.toNat < s.len.toNat →
    rsvField w = 0 → opField w < 6 → step s = .refused .lenBeyondCapacity

/-- An idle block with no host access pending changes nothing but the end of the done pulse. "Nothing but a write of CMD starts it" (60_exceptions R194). The done field and the host list are the model's (log entries 5, 15). -/
def Obligations.IdleBlockWithoutAccessStaysAsItIs : Prop :=
  ∀ s : State, s.status.busy = false → s.host = [] → step s = .next { s with done := false }

/-- A busy block runs the command in CMD to its end and the host has no move before that (model choice, log entries 4 and 6). The model's choice for a state no run reaches (log entries 4, 6), in line with 70_reset_and_hazards R215. -/
def Obligations.BusyBlockEndsItsCommandBeforeAnyAccess : Prop :=
  ∀ (s : State) (i : Instr), s.status.busy = true → s.len.toNat ≤ s.cap.toNat → decode s.cmd = .ok i →
    step s = exec i { s with done := false }

/-- A command leaves the written word in CMD and never writes CMD or LEN; nor CAP and the host lists, which are the model's fields (log entries 1, 5). "The block never changes CMD" (10_state R30), nor LEN (R32). The clauses on CAP, the host list and the list of answers rest on no rule: these fields are the model's choice (log entry 1 for CAP, log entry 5 for the two lists). -/
def Obligations.CmdHoldsTheWordWrittenAndLenIsKept : Prop :=
  (∀ (i : Instr) (s t : State), exec i s = .next t →
      t.cmd = s.cmd ∧ t.len = s.len ∧ t.cap = s.cap ∧ t.host = s.host ∧ t.seen = s.seen) ∧
    ∀ (s t : State) (w : Word) (rest : List HostMove), s.Offers w rest → step s = .next t →
      t.cmd = w ∧ t.len = s.len

/-! ### Conditions and their priority (spec/60_exceptions.md) -/

/-- Every word written to CMD reports the first condition of the spec's order, and completes normally only if none applies. The whole decode procedure of 30_encoding R85 with the priority of 60_exceptions R186, on the raw fields of the word (reportedCode in Safety.lean). That the access is taken from the host list and that done is high are the model's choices (log entries 5 and 15). -/
def Obligations.ReportedCodeFollowsThePriority : Prop :=
  ∀ (s : State) (w : Word) (rest : List HostMove), s.Offers w rest →
    (s.len.toNat ≤ s.cap.toNat ∨ rsvField w ≠ 0 ∨ 6 ≤ opField w) →
    (reportedCode w s.len.toNat ≠ .ok →
      step s = .next { s with cmd := w, status := ⟨reportedCode w s.len.toNat, false⟩, host := rest, done := true }) ∧
    (reportedCode w s.len.toNat = .ok → ∀ t, step s = .next t → t.status = ⟨.ok, false⟩)

/-- A command that raises a condition changes STATUS and nothing else. R187 (a), (b), (c); done is the output of 10_state R36 (log entry 15). -/
def Obligations.RaisedConditionChangesNothingElse : Prop :=
  (∀ (i : Instr) (s t : State), exec i s = .next t → t.status.code ≠ .ok → t = s.endedWith t.status.code) ∧
    ∀ s t : State, runCommand s = .next t → t.status.code ≠ .ok → t = s.endedWith t.status.code

/-- After every step BUSY is 0 (log entry 4), and after a command the done output is high (the model's choice, log entry 15). "BUSY always falls" (70_reset_and_hazards R219). That it has fallen by the end of every step rests on the command being one step (log entry 4). The clause on done rests on no rule: it is the model's choice for the output that 10_state R36 sketches as not normative (log entry 15). -/
def Obligations.EveryStepEndsWithTheBlockIdle : Prop :=
  (∀ s t : State, step s = .next t → t.status.busy = false) ∧
    ∀ s t : State, runCommand s = .next t → t.status.busy = false ∧ t.done = true

/-- INSPECT and the seven transforms raise TruncatedHeader when LEN is below 54. R181 for the eight commands that need the header. -/
def Obligations.ShortBufferRaisesTruncatedHeader : Prop :=
  ∀ (s : State) (ch depth : Nat), s.len.toNat < 54 →
    Code.truncatedHeader.number = 1 ∧ EndsWith (exec (.inspect ch depth) s) s .truncatedHeader ∧
    (ch < 4 → EndsWith (exec (.filter4 ch) s) s .truncatedHeader ∧
      EndsWith (exec (.darken4 ch) s) s .truncatedHeader) ∧
    (ch < 3 → EndsWith (exec (.filter24 ch) s) s .truncatedHeader ∧
      EndsWith (exec (.darken24 ch) s) s .truncatedHeader ∧
      EndsWith (exec (.gray24 ch) s) s .truncatedHeader ∧
      EndsWith (exec (.white24 ch) s) s .truncatedHeader ∧
      EndsWith (exec (.black24 ch) s) s .truncatedHeader)

/-- CH 4 or above at depth 4, or 3 or above at depth 24, raises InvalidChannel whatever the operation. R183 (and 41_unpack_dispatch R127). -/
def Obligations.InvalidChannelIsRaisedWhateverTheOperation : Prop :=
  Code.invalidChannel.number = 3 ∧
  (∀ (s : State) (ch : Nat), 4 ≤ ch →
    EndsWith (exec (.filter4 ch) s) s .invalidChannel ∧
    EndsWith (exec (.darken4 ch) s) s .invalidChannel ∧
    EndsWith (exec (.gray4 ch) s) s .invalidChannel ∧
    EndsWith (exec (.white4 ch) s) s .invalidChannel ∧
    EndsWith (exec (.black4 ch) s) s .invalidChannel) ∧
  ∀ (s : State) (ch : Nat), 3 ≤ ch →
    EndsWith (exec (.filter24 ch) s) s .invalidChannel ∧
    EndsWith (exec (.darken24 ch) s) s .invalidChannel ∧
    EndsWith (exec (.gray24 ch) s) s .invalidChannel ∧
    EndsWith (exec (.white24 ch) s) s .invalidChannel ∧
    EndsWith (exec (.black24 ch) s) s .invalidChannel

/-- GRAY.4, WHITE.4 and BLACK.4 with a valid channel raise UnsupportedOperation. R184 (and 42_depth4 R143): the three rows complete by raising their condition. -/
def Obligations.GrayWhiteBlackAtDepthFourRaiseUnsupportedOperation : Prop :=
  ∀ (s : State) (ch : Nat), ch < 4 →
    Code.unsupportedOperation.number = 4 ∧ EndsWith (exec (.gray4 ch) s) s .unsupportedOperation ∧
    EndsWith (exec (.white4 ch) s) s .unsupportedOperation ∧
    EndsWith (exec (.black4 ch) s) s .unsupportedOperation

/-- The fifteen rows at depths 8, 16 and 32 raise UnsupportedDepth in every state with any channel. R170, R171, R172: the fifteen rows complete by raising their condition. -/
def Obligations.UnsupportedDepthRowsRaiseUnsupportedDepth : Prop :=
  ∀ (s : State) (ch : Nat),
    exec (.filter8 ch) s = .next (s.endedWith .unsupportedDepth) ∧
    exec (.darken8 ch) s = .next (s.endedWith .unsupportedDepth) ∧
    exec (.gray8 ch) s = .next (s.endedWith .unsupportedDepth) ∧
    exec (.white8 ch) s = .next (s.endedWith .unsupportedDepth) ∧
    exec (.black8 ch) s = .next (s.endedWith .unsupportedDepth) ∧
    exec (.filter16 ch) s = .next (s.endedWith .unsupportedDepth) ∧
    exec (.darken16 ch) s = .next (s.endedWith .unsupportedDepth) ∧
    exec (.gray16 ch) s = .next (s.endedWith .unsupportedDepth) ∧
    exec (.white16 ch) s = .next (s.endedWith .unsupportedDepth) ∧
    exec (.black16 ch) s = .next (s.endedWith .unsupportedDepth) ∧
    exec (.filter32 ch) s = .next (s.endedWith .unsupportedDepth) ∧
    exec (.darken32 ch) s = .next (s.endedWith .unsupportedDepth) ∧
    exec (.gray32 ch) s = .next (s.endedWith .unsupportedDepth) ∧
    exec (.white32 ch) s = .next (s.endedWith .unsupportedDepth) ∧
    exec (.black32 ch) s = .next (s.endedWith .unsupportedDepth)

/-- No command faults; a command is refused only for an unwritten byte below LEN or for LEN above CAP. No out-of-bounds, misalignment, arithmetic or bus fault (60_exceptions R191); the two refusals are log entries 2, 3. -/
def Obligations.CommandsNeverFault : Prop :=
  (∀ (i : Instr) (s : State) (f : Fault), exec i s ≠ .fault f) ∧
    ∀ (i : Instr) (s : State) (r : Refusal), exec i s = .refused r →
      (r = .lenBeyondCapacity ∧ s.cap.toNat < s.len.toNat) ∨
        (r = .unwrittenByte ∧ ∃ a, a < s.len.toNat ∧ s.buf.read a = none)

/-! ### INSPECT (spec/40_header_inspect.md) -/

/-- INSPECT loads the five little-endian header fields and changes nothing else. R110 with the byte order of 20_memory R53. Only the 18 named bytes need to be written. -/
def Obligations.InspectLoadsTheFiveHeaderFields : Prop :=
  ∀ (s : State) (ch depth : Nat) (b : Nat → Byte), 54 ≤ s.len.toNat → s.len.toNat ≤ s.cap.toNat →
    (∀ a ∈ [2, 3, 4, 5, 10, 11, 12, 13, 18, 19, 20, 21, 22, 23, 24, 25, 28, 29], s.buf.read a = some (b a)) →
    exec (.inspect ch depth) s = .next
      { s with
        hSize := BitVec.ofNat 32
          ((b 2).toNat + 2 ^ 8 * (b 3).toNat + 2 ^ 16 * (b 4).toNat + 2 ^ 24 * (b 5).toNat)
        hOff := BitVec.ofNat 32
          ((b 10).toNat + 2 ^ 8 * (b 11).toNat + 2 ^ 16 * (b 12).toNat + 2 ^ 24 * (b 13).toNat)
        hWidth := BitVec.ofNat 32
          ((b 18).toNat + 2 ^ 8 * (b 19).toNat + 2 ^ 16 * (b 20).toNat + 2 ^ 24 * (b 21).toNat)
        hHeight := BitVec.ofNat 32
          ((b 22).toNat + 2 ^ 8 * (b 23).toNat + 2 ^ 16 * (b 24).toNat + 2 ^ 24 * (b 25).toNat)
        hBpp := BitVec.ofNat 32 ((b 28).toNat + 2 ^ 8 * (b 29).toNat)
        status := ⟨.ok, false⟩
        done := true }

/-- Only an INSPECT that ends OK changes a header result register. R26: no APPLY writes them, and a failed INSPECT leaves all five. -/
def Obligations.OnlySuccessfulInspectWritesHeaderRegisters : Prop :=
  ∀ (i : Instr) (s t : State), exec i s = .next t →
    ¬(t.hSize = s.hSize ∧ t.hOff = s.hOff ∧ t.hWidth = s.hWidth ∧ t.hHeight = s.hHeight ∧ t.hBpp = s.hBpp) →
    (∃ ch depth, i = .inspect ch depth) ∧ t.status.code = .ok

/-- INSPECT ignores CH and DEPTH; GRAY.24, WHITE.24, BLACK.24 ignore which valid CH is given and reject an invalid one. R90 (and R94). -/
def Obligations.IgnoredFieldsDoNotMatter : Prop :=
  (∀ (s : State) (ch depth ch' depth' : Nat), exec (.inspect ch depth) s = exec (.inspect ch' depth') s) ∧
    (∀ (s : State) (ch ch' : Nat), ch < 3 → ch' < 3 →
      exec (.gray24 ch) s = exec (.gray24 ch') s ∧ exec (.white24 ch) s = exec (.white24 ch') s ∧
      exec (.black24 ch) s = exec (.black24 ch') s) ∧
    ∀ (s : State) (ch : Nat), 3 ≤ ch →
      EndsWith (exec (.gray24 ch) s) s .invalidChannel ∧
      EndsWith (exec (.white24 ch) s) s .invalidChannel ∧
      EndsWith (exec (.black24 ch) s) s .invalidChannel

/-! ### Pixel formats (spec/41_unpack_dispatch.md) -/

/-- A byte at depth 4 is its two nibbles, low first. The definitions of R120. -/
def Obligations.NibblesUnpackAndPack : Prop :=
  (∀ b : Byte, (unpack4 b).1.toNat = b.toNat % 16 ∧ (unpack4 b).2.toNat = b.toNat / 16 ∧
      pack4 (unpack4 b).1 (unpack4 b).2 = b) ∧
    ∀ n0 n1 : BitVec 4, (pack4 n0 n1).toNat = n1.toNat * 16 + n0.toNat ∧ unpack4 (pack4 n0 n1) = (n0, n1)

/-- extract4 selects the channel nibble (none for red and gray), extract24 the channel byte. R122 and the table of R123. For red and gray at depth 4 no bit is selected; that it then reads as 0 is the shift's result (log entry 8). -/
def Obligations.ChannelExtractSelectsTheNamedPart : Prop :=
  (∀ b : Byte, extract4 b 0 = (unpack4 b).1 ∧ extract4 b 1 = (unpack4 b).2 ∧ extract4 b 2 = 0#4 ∧
      extract4 b 3 = 0#4) ∧
    ∀ g0 g1 g2 : Byte, extract24 (unpack24 g0 g1 g2) 0 = some g0 ∧ extract24 (unpack24 g0 g1 g2) 1 = some g1 ∧
      extract24 (unpack24 g0 g1 g2) 2 = some g2 ∧ pack24 (unpack24 g0 g1 g2) = (g0, g1, g2)

/-- The nibble mask is 0x0F for blue, 0xF0 for green, 0x00 for red and gray. R140. For red and gray the value is the spec's decision D18 (log entry 8). -/
def Obligations.NibbleMaskOfEachChannel : Prop :=
  mask4 0 = 0x0F#8 ∧ mask4 1 = 0xF0#8 ∧ mask4 2 = 0x00#8 ∧ mask4 3 = 0x00#8 ∧
    ∀ ch, ch < 4 → (mask4 ch).toNat = (15 * 2 ^ (4 * ch)) % 256

/-- The average of three bytes is the floor of their untruncated sum over 3. R163: the sum is never truncated to 8 bits before the division. -/
def Obligations.AverageIsTheFloorOfTheMean : Prop :=
  ∀ p : Pixel, pixelSum p = p.blue.toNat + p.green.toNat + p.red.toNat ∧ pixelSum p ≤ 765 ∧
    (pixelAverage p).toNat = pixelSum p / 3

/-! ### The transforms (spec/42_depth4.md, 43_depth24_channel.md, 44_depth24_whole.md) -/

/-- FILTER.4 and DARKEN.4 clear or set the channel nibble of every byte from the offset to the end, and change nothing else. The walks of R141 and R142 in the closed form the spec infers from them (R144), with the frame: registers other than STATUS, and every byte outside [off, LEN), are unchanged. Red and gray rest on the spec's decision D18 (log entry 8). -/
def Obligations.DepthFourClosedForm : Prop :=
  (∀ (s : State) (ch off : Nat), ch < 4 → s.OffsetReady off → s.buf.Written off s.len.toNat →
      (∃ buf, exec (.filter4 ch) s = .next (s.completedWith buf) ∧
        ∀ j, buf.read j =
          if off ≤ j ∧ j < s.len.toNat then (s.buf.read j).map (fun b => b &&& ~~~ mask4 ch) else s.buf.read j) ∧
      ∃ buf, exec (.darken4 ch) s = .next (s.completedWith buf) ∧
        ∀ j, buf.read j =
          if off ≤ j ∧ j < s.len.toNat then (s.buf.read j).map (fun b => b ||| mask4 ch) else s.buf.read j) ∧
    ∀ n0 n1 : BitVec 4,
      pack4 n0 n1 &&& ~~~ mask4 0 = pack4 0 n1 ∧ pack4 n0 n1 &&& ~~~ mask4 1 = pack4 n0 0 ∧
      pack4 n0 n1 ||| mask4 0 = pack4 15 n1 ∧ pack4 n0 n1 ||| mask4 1 = pack4 n0 15 ∧
      ∀ ch, ch = 2 ∨ ch = 3 → pack4 n0 n1 &&& ~~~ mask4 ch = pack4 n0 n1 ∧ pack4 n0 n1 ||| mask4 ch = pack4 n0 n1

/-- FILTER.24 zeroes exactly the channel byte of every pixel and changes nothing else. The walk of R151 in the closed form the spec infers from it (R153), with the frame. No byte of the pixel array is read (R151). -/
def Obligations.FilterTwentyFourClosedForm : Prop :=
  ∀ (s : State) (ch off : Nat), ch < 3 → s.OffsetReady off →
    ∃ buf, exec (.filter24 ch) s = .next (s.completedWith buf) ∧
      ∀ j, buf.read j =
        if off ≤ j ∧ j < s.len.toNat ∧ (j - off) % 3 = ch then some 0#8 else s.buf.read j

/-- DARKEN.24 zeroes every byte after the first visited one that is not of the channel phase, and changes nothing else. The walk of R152, which zeroes the two bytes that follow each visited byte, in the closed form the spec infers from it (R154), with the frame. -/
def Obligations.DarkenTwentyFourClosedForm : Prop :=
  ∀ (s : State) (ch off : Nat), ch < 3 → s.OffsetReady off →
    ∃ buf, exec (.darken24 ch) s = .next (s.completedWith buf) ∧
      ∀ j, buf.read j =
        if off ≤ j ∧ j < s.len.toNat ∧ ch < j - off ∧ (j - off) % 3 ≠ ch then some 0#8 else s.buf.read j

/-- GRAY.24 gives every byte of a whole pixel the floor of the pixel mean, leaves a trailing partial pixel, and changes nothing else. R160, R163; the trailing one or two bytes rest on the spec's decision D19 (R164, log entry 9). -/
def Obligations.GrayTwentyFourClosedForm : Prop :=
  ∀ (s : State) (ch off : Nat), ch < 3 → s.OffsetReady off →
    (∀ j, j < s.len.toNat → off ≤ j → off + 3 * ((j - off) / 3) + 2 < s.len.toNat → (s.buf.read j).isSome = true) →
    ∃ buf, exec (.gray24 ch) s = .next (s.completedWith buf) ∧
      (∀ j g b0 b1 b2, off ≤ j → g = off + 3 * ((j - off) / 3) → g + 2 < s.len.toNat →
        s.buf.read g = some b0 → s.buf.read (g + 1) = some b1 → s.buf.read (g + 2) = some b2 →
        buf.read j = some (BitVec.ofNat 8 ((b0.toNat + b1.toNat + b2.toNat) / 3))) ∧
      ∀ j, ¬(off ≤ j ∧ off + 3 * ((j - off) / 3) + 2 < s.len.toNat) → buf.read j = s.buf.read j

/-- WHITE.24 and BLACK.24 set every byte of the pixel array to 255 and to 0 and change nothing else. R161, R162 (the closed forms of R163), with the frame. -/
def Obligations.FloodTwentyFourClosedForm : Prop :=
  ∀ (s : State) (ch off : Nat), ch < 3 → s.OffsetReady off →
    (∃ buf, exec (.white24 ch) s = .next (s.completedWith buf) ∧
      ∀ j, buf.read j = if off ≤ j ∧ j < s.len.toNat then some 255#8 else s.buf.read j) ∧
    ∃ buf, exec (.black24 ch) s = .next (s.completedWith buf) ∧
      ∀ j, buf.read j = if off ≤ j ∧ j < s.len.toNat then some 0#8 else s.buf.read j

/-- With the offset at or beyond LEN every transform leaves BUF unchanged and ends OK. R130; the sum off + CH does not wrap (20_memory R66). -/
def Obligations.OffsetBeyondTheEndIsANoOp : Prop :=
  ∀ (s : State) (ch off : Nat), s.OffsetReady off →
    (ch < 4 → s.len.toNat ≤ off →
      EndsWith (exec (.filter4 ch) s) s .ok ∧ EndsWith (exec (.darken4 ch) s) s .ok) ∧
    (ch < 3 → s.len.toNat ≤ off →
      EndsWith (exec (.gray24 ch) s) s .ok ∧ EndsWith (exec (.white24 ch) s) s .ok ∧
      EndsWith (exec (.black24 ch) s) s .ok) ∧
    (ch < 3 → s.len.toNat ≤ off + ch →
      EndsWith (exec (.filter24 ch) s) s .ok ∧ EndsWith (exec (.darken24 ch) s) s .ok)

/-- A command that would read a byte nothing has written is refused (model refusal, log entry 2). Where the model stops: 10_state R37 and 93 U3 ask for the refusal. -/
def Obligations.UnwrittenByteThatWouldBeReadIsRefused : Prop :=
  ∀ (s : State) (ch depth a : Nat), 54 ≤ s.len.toNat → s.len.toNat ≤ s.cap.toNat → s.buf.read a = none →
    (a ∈ [2, 3, 4, 5, 10, 11, 12, 13, 18, 19, 20, 21, 22, 23, 24, 25, 28, 29] →
      exec (.inspect ch depth) s = .refused .unwrittenByte) ∧
    (10 ≤ a → a < 14 →
      (ch < 4 → exec (.filter4 ch) s = .refused .unwrittenByte ∧ exec (.darken4 ch) s = .refused .unwrittenByte) ∧
      (ch < 3 → exec (.filter24 ch) s = .refused .unwrittenByte ∧ exec (.darken24 ch) s = .refused .unwrittenByte ∧
        exec (.gray24 ch) s = .refused .unwrittenByte ∧ exec (.white24 ch) s = .refused .unwrittenByte ∧
        exec (.black24 ch) s = .refused .unwrittenByte)) ∧
    ∀ off, readOffset s.buf = some off → off ≤ a → a < s.len.toNat →
      (ch < 4 → exec (.filter4 ch) s = .refused .unwrittenByte ∧ exec (.darken4 ch) s = .refused .unwrittenByte) ∧
      (ch < 3 → off + 3 * ((a - off) / 3) + 2 < s.len.toNat → exec (.gray24 ch) s = .refused .unwrittenByte)

/-! ### Whole-machine rules -/

/-- A command changes no byte outside the pixel array from the offset it read to LEN. R131 (c), R51, R33. -/
def Obligations.TransformsStayInsideThePixelArray : Prop :=
  ∀ (i : Instr) (s t : State) (a : Nat), exec i s = .next t → t.buf.read a ≠ s.buf.read a →
    ∃ off, readOffset s.buf = some off ∧ off ≤ a ∧ a < s.len.toNat

/-- The outcome of a command depends on BUF, LEN, CAP and the command alone. R131 (d), R28, R129: no command reads STATUS, CMD or H_*; nothing is retained between commands (R35). -/
def Obligations.OutcomeDependsOnBufferLenAndCommandAlone : Prop :=
  ∀ (i : Instr) (s1 s2 : State), s1.buf = s2.buf → s1.len = s2.len → s1.cap = s2.cap →
    (∀ t1, exec i s1 = .next t1 → ∃ t2, exec i s2 = .next t2 ∧ t2.buf = t1.buf ∧ t2.status = t1.status ∧
      ((∃ ch depth, i = .inspect ch depth) → t1.status.code = .ok →
        t2.hSize = t1.hSize ∧ t2.hOff = t1.hOff ∧ t2.hWidth = t1.hWidth ∧ t2.hHeight = t1.hHeight ∧
        t2.hBpp = t1.hBpp)) ∧
    ∀ r, exec i s1 = .refused r → exec i s2 = .refused r

/-- GRAY.24 applied twice gives the same machine state as applied once. R160 and S2. The premise 14 ≤ off keeps the transform off bytes 10 to 13 (20_memory R67, 70_reset_and_hazards R217); the canonical form is kept by every step (StepKeepsTheInvariant). -/
def Obligations.GrayTwentyFourIsIdempotent : Prop :=
  ∀ (s : State) (ch ch' off : Nat), ch < 3 → ch' < 3 → s.buf.wf = true → s.OffsetReady off → 14 ≤ off →
    s.buf.Written off s.len.toNat →
    ∃ t, exec (.gray24 ch) s = .next t ∧ exec (.gray24 ch') t = .next t

/-- FILTER.4, DARKEN.4, FILTER.24, DARKEN.24, WHITE.24 and BLACK.24 applied twice give the same machine state as applied once. The idempotence each rule states among its corner cases; the premise 14 ≤ off as in GrayTwentyFourIsIdempotent. -/
def Obligations.OtherTransformsAreIdempotent : Prop :=
  ∀ (s : State) (ch off : Nat), s.buf.wf = true → s.OffsetReady off → 14 ≤ off → s.buf.Written off s.len.toNat →
    (ch < 4 → (∃ t, exec (.filter4 ch) s = .next t ∧ exec (.filter4 ch) t = .next t) ∧
      ∃ t, exec (.darken4 ch) s = .next t ∧ exec (.darken4 ch) t = .next t) ∧
    (ch < 3 → (∃ t, exec (.filter24 ch) s = .next t ∧ exec (.filter24 ch) t = .next t) ∧
      (∃ t, exec (.darken24 ch) s = .next t ∧ exec (.darken24 ch) t = .next t) ∧
      (∃ t, exec (.white24 ch) s = .next t ∧ exec (.white24 ch) t = .next t) ∧
      ∃ t, exec (.black24 ch) s = .next t ∧ exec (.black24 ch) t = .next t)

/-- FILTER.24 blue, green and red one after another end in the same machine state as BLACK.24. R151: "all three together zero the whole pixel array (the same result as BLACK.24)". -/
def Obligations.ThreeFiltersEqualOneBlack : Prop :=
  ∀ (s : State) (off : Nat), s.buf.wf = true → s.OffsetReady off → 14 ≤ off →
    ∃ t1 t2 t3, exec (.filter24 0) s = .next t1 ∧ exec (.filter24 1) t1 = .next t2 ∧
      exec (.filter24 2) t2 = .next t3 ∧ exec (.black24 0) s = .next t3

/-- DARKEN.4 after FILTER.4 with the same channel is DARKEN.4, and FILTER.4 after DARKEN.4 is FILTER.4. R142: "the later command wins". -/
def Obligations.LaterDepthFourCommandWins : Prop :=
  ∀ (s : State) (ch off : Nat), ch < 4 → s.buf.wf = true → s.OffsetReady off → 14 ≤ off →
    s.buf.Written off s.len.toNat →
    ∃ f d, exec (.filter4 ch) s = .next f ∧ exec (.darken4 ch) s = .next d ∧
      exec (.darken4 ch) f = .next d ∧ exec (.filter4 ch) d = .next f

/-- A flood that covers some of bytes 10 to 13 runs on the offset it read, and the next flood runs on the changed one. R67 and its example, R161's corner case: the offset is read once, before the first write (R129), and afresh by the next command. An offset of 11, 12 or 13 is itself in the lowest bytes of the field, which the flood leaves. -/
def Obligations.FloodOverTheOffsetFieldIsSeenByTheNextCommand : Prop :=
  ∀ (s : State) (ch ch' off : Nat), ch < 3 → ch' < 3 → s.OffsetReady off → off ≤ 13 →
    (∃ buf, exec (.black24 ch) s = .next (s.completedWith buf) ∧
      (∀ j, buf.read j = if off ≤ j ∧ j < s.len.toNat then some 0#8 else s.buf.read j) ∧
      ∃ off', off' = (if off ≤ 10 then 0 else off) ∧ readOffset buf = some off' ∧
        ∃ buf', exec (.white24 ch') (s.completedWith buf) = .next (s.completedWith buf') ∧
          ∀ j, buf'.read j = if off' ≤ j ∧ j < s.len.toNat then some 255#8 else buf.read j) ∧
    ∃ buf, exec (.white24 ch) s = .next (s.completedWith buf) ∧
      (∀ j, buf.read j = if off ≤ j ∧ j < s.len.toNat then some 255#8 else s.buf.read j) ∧
      ∃ off', off' = (if off ≤ 10 then 0xFFFFFFFF else if off = 11 then 0xFFFFFF0B else if off = 12 then 0xFFFF000C
          else 0xFF00000D) ∧ readOffset buf = some off' ∧
        ∃ buf', exec (.black24 ch') (s.completedWith buf) = .next (s.completedWith buf') ∧
          ∀ j, buf'.read j = if off' ≤ j ∧ j < s.len.toNat then some 0#8 else buf.read j

/-! ### BUF and the host interface (spec/10_state.md, 20_memory.md) -/

/-- A byte of BUF reads the value last written to it, and a write changes that byte only. R58. -/
def Obligations.ByteReadsWhatWasLastWritten : Prop :=
  ∀ (m : Memory) (a c : Nat) (v : Byte),
    (m.write a v).read a = some v ∧ (c ≠ a → (m.write a v).read c = m.read c)

/-- A write keeps BUF in canonical form, and equal readings of canonical buffers mean equal buffers (model representation, log entry 2). The representation of BUF as plain data (log entry 2). -/
def Obligations.WritesKeepTheCanonicalForm : Prop :=
  (∀ (m : Memory) (a : Nat) (v : Byte), m.wf = true → (m.write a v).wf = true) ∧
    ∀ m n : Memory, m.wf = true → n.wf = true → (∀ a, m.read a = n.read a) → m = n

/-- MemRead of 4 and of 2 bytes is little-endian. R53. -/
def Obligations.HeaderFieldsAreLittleEndian : Prop :=
  (∀ (m : Memory) (a : Nat) (b0 b1 b2 b3 : Byte), m.read a = some b0 → m.read (a + 1) = some b1 →
      m.read (a + 2) = some b2 → m.read (a + 3) = some b3 →
      m.readLE a 4 = some (b0.toNat + 2 ^ 8 * b1.toNat + 2 ^ 16 * b2.toNat + 2 ^ 24 * b3.toNat) ∧
      m.readLE a 2 = some (b0.toNat + 2 ^ 8 * b1.toNat)) ∧
    ∀ m : Memory, m.read 10 = some 0x36#8 → m.read 11 = some 0x00#8 → m.read 12 = some 0x00#8 →
      m.read 13 = some 0x00#8 → readOffset m = some 54

/-- The STATUS word holds CODE in bits 3 to 0, BUSY in bit 31 and zero between. R31: the bits of STATUS as the host reads them. -/
def Obligations.StatusWordHoldsCodeAndBusy : Prop :=
  ∀ st : Status, st.word.toNat % 16 = st.code.number ∧ st.word.toNat / 16 % 2 ^ 27 = 0 ∧
    st.word.toNat / 2 ^ 31 = if st.busy then 1 else 0

/-- A host read returns the register at its offset and changes nothing else. The register map of R29, H_BPP[31:16] reading 0 (R25). The answer list is the model's (log entry 5). -/
def Obligations.HostReadsTheRegisterMap : Prop :=
  ∀ (s : State) (offset : Nat) (rest : List HostMove), s.status.busy = false →
    s.host = .regRead offset .word :: rest → offset % 4 = 0 →
    step s = .next { s with
      host := rest
      done := false
      seen := s.seen ++ [.register
        (if offset = 0 then s.cmd else if offset = 4 then s.status.word else if offset = 8 then s.len
        else if offset = 0x10 then s.hSize else if offset = 0x14 then s.hOff else if offset = 0x18 then s.hWidth
        else if offset = 0x1C then s.hHeight else if offset = 0x20 then BitVec.setWidth 32 (BitVec.setWidth 16 s.hBpp)
        else 0#32)] }

/-- A host write stores LEN, and is ignored at every offset but those of CMD and LEN. The access rights of R29. -/
def Obligations.HostWritesOnlyCmdAndLen : Prop :=
  ∀ (s : State) (offset : Nat) (v : Word) (rest : List HostMove), s.status.busy = false →
    s.host = .regWrite offset .word v :: rest → offset % 4 = 0 →
    (offset = 8 → step s = .next { s with len := v, host := rest, done := false }) ∧
    (offset ≠ 0 → offset ≠ 8 → step s = .next { s with host := rest, done := false })

/-- Reserved offsets read 0 and ignore writes; a narrow or misaligned register access is refused. R38; the refusal is log entry 13. -/
def Obligations.ReservedOffsetsReadZeroAndShapeIsChecked : Prop :=
  (∀ (s : State) (offset : Nat) (rest : List HostMove), s.status.busy = false → offset % 4 = 0 →
      offset = 0x0C ∨ 0x24 ≤ offset →
      (s.host = .regRead offset .word :: rest →
        step s = .next { s with host := rest, done := false, seen := s.seen ++ [.register 0#32] }) ∧
      ∀ v, s.host = .regWrite offset .word v :: rest → step s = .next { s with host := rest, done := false }) ∧
    ∀ (s : State) (offset : Nat) (size : AccessSize) (rest : List HostMove), s.status.busy = false →
      size ≠ .word ∨ offset % 4 ≠ 0 →
      (s.host = .regRead offset size :: rest → step s = .refused .registerAccessShape) ∧
      ∀ v, s.host = .regWrite offset size v :: rest → step s = .refused .registerAccessShape

/-- The host writes and reads single bytes of BUF below CAP; beyond CAP the access faults (model choices, log entries 2 and 14). R33: the host reaches BUF through a path of its own; byte width, fault and refusal are the model's (log entries 2, 14). -/
def Obligations.HostReachesBufByBytesBelowCapacity : Prop :=
  ∀ (s : State) (a : Nat) (rest : List HostMove), s.status.busy = false →
    (∀ v, s.host = .bufWrite a v :: rest →
      (a < s.cap.toNat → step s = .next { s with buf := s.buf.write a v, host := rest, done := false }) ∧
      (s.cap.toNat ≤ a → step s = .fault .addressBeyondCapacity)) ∧
    (s.host = .bufRead a :: rest →
      (a < s.cap.toNat → ∀ b, s.buf.read a = some b →
        step s = .next { s with host := rest, done := false, seen := s.seen ++ [.byte b] }) ∧
      (a < s.cap.toNat → s.buf.read a = none → step s = .refused .unwrittenByte) ∧
      (s.cap.toNat ≤ a → step s = .fault .addressBeyondCapacity))

/-! ### Reset and invariants (spec/70_reset_and_hazards.md) -/

/-- After reset all eight registers are 0, every offset reads 0, and no byte of BUF has a value. R211. The capacity of State.reset is log entry 1. -/
def Obligations.ResetLeavesEveryRegisterZero : Prop :=
  (∀ (cap : Word) (offset a : Nat),
      (State.resetFor cap).cmd = 0#32 ∧ (State.resetFor cap).status = ⟨.ok, false⟩ ∧
      (State.resetFor cap).status.word = 0#32 ∧ (State.resetFor cap).len = 0#32 ∧
      (State.resetFor cap).hSize = 0#32 ∧ (State.resetFor cap).hOff = 0#32 ∧ (State.resetFor cap).hWidth = 0#32 ∧
      (State.resetFor cap).hHeight = 0#32 ∧ (State.resetFor cap).hBpp = 0#32 ∧
      (State.resetFor cap).readRegister offset = 0#32 ∧ (State.resetFor cap).buf.read a = none) ∧
    ∃ cap, State.reset = State.resetFor cap

/-- Right after reset every command word completes with a condition, and only CMD and STATUS change. R37: with LEN = 0 after reset a valid command raises TruncatedHeader and touches nothing. -/
def Obligations.EveryWordReportsAConditionRightAfterReset : Prop :=
  ∀ (cap w : Word), reportedCode w 0 ≠ .ok ∧
    step ((State.resetFor cap).offerCommand w) =
      .next { State.resetFor cap with cmd := w, status := ⟨reportedCode w 0, false⟩, done := true }

/-- The reset input between commands gives the reset state (model choice, log entry 7). R210 between commands; reset in mid-command is not modelled (log entry 7). -/
def Obligations.ResetInputBetweenCommandsGivesTheResetState : Prop :=
  ∀ (s : State) (rest : List HostMove), s.status.busy = false → s.host = .reset :: rest →
    step s = .next { State.resetFor s.cap with host := rest, seen := s.seen }

/-- The invariant holds in the reset state. The base of StepKeepsTheInvariant. -/
def Obligations.InvariantHoldsAtReset : Prop :=
  State.reset.Inv ∧ ∀ cap : Word, (State.resetFor cap).Inv

/-- Every step keeps BUF canonical and within its capacity, H_BPP[31:16] zero and the block idle. The four parts are named in State.Inv (Safety.lean). -/
def Obligations.StepKeepsTheInvariant : Prop :=
  ∀ s t : State, s.Inv → step s = .next t → t.Inv

/-- No step changes CAP. CAP is a parameter (00_scope R7, 10_state R35), held in State by the model (log entry 1). -/
def Obligations.StepKeepsTheCapacity : Prop :=
  ∀ s t : State, step s = .next t → t.cap = s.cap

/-- A host that keeps LEN within CAP, loads the buffer before a command and makes defined accesses never meets a fault or a refusal. Every command ends, without a stop, on a buffer loaded as R213 asks, whichever of its steps 1 and 2 comes first (60_exceptions R191, R199). What is asked of the host is R213, R215, R216 and 10_state R38; the host list, BUSY 0 after the step and the bound on the host's BUF accesses are the model's (log entries 5, 4, 14), and reset in mid-command is left out (log entry 7). -/
def Obligations.HostThatKeepsTheRulesNeverStopsTheMachine : Prop :=
  ∀ s : State, s.len.toNat ≤ s.cap.toNat → (s.status.busy = true → s.Loaded) →
    (s.status.busy = false → ∀ move rest, s.host = move :: rest → move.legal s) →
    ∃ t, step s = .next t ∧ t.len.toNat ≤ t.cap.toNat ∧ t.status.busy = false ∧
      ∀ a, a < t.len.toNat → (s.buf.read a).isSome = true → (t.buf.read a).isSome = true
end

