-- ==== Sys2Proof/Laws/Decode.lean ====
section
/-! SUPPORT. The fields of a command word and the word they make (30_encoding R80, R87). -/

namespace Sys2Proof

/-- The word of three fields, as a number, while the fields fit. -/
theorem formatC_toNat {depth ch op : Nat} (hd : depth < 65536) (hc : ch < 16) (ho : op < 16) :
    (formatC depth ch op).toNat = depth * 65536 + ch * 16 + op := by
  unfold formatC
  rw [BitVec.toNat_ofNat]
  exact Nat.mod_eq_of_lt (by omega)

theorem opField_formatC {depth ch op : Nat} (hd : depth < 65536) (hc : ch < 16) (ho : op < 16) :
    opField (formatC depth ch op) = op := by
  unfold opField; rw [formatC_toNat hd hc ho]; omega

theorem chField_formatC {depth ch op : Nat} (hd : depth < 65536) (hc : ch < 16) (ho : op < 16) :
    chField (formatC depth ch op) = ch := by
  unfold chField; rw [formatC_toNat hd hc ho]; omega

theorem rsvField_formatC {depth ch op : Nat} (hd : depth < 65536) (hc : ch < 16) (ho : op < 16) :
    rsvField (formatC depth ch op) = 0 := by
  unfold rsvField; rw [formatC_toNat hd hc ho]; omega

theorem depthField_formatC {depth ch op : Nat} (hd : depth < 65536) (hc : ch < 16) (ho : op < 16) :
    depthField (formatC depth ch op) = depth := by
  unfold depthField; rw [formatC_toNat hd hc ho]; omega

theorem opField_lt (w : Word) : opField w < 16 := Nat.mod_lt _ (by omega)

theorem chField_lt (w : Word) : chField w < 16 := Nat.mod_lt _ (by omega)

theorem depthField_lt (w : Word) : depthField w < 65536 := by
  have := w.isLt
  unfold depthField
  omega

/-- A word with RSV = 0 is the word of its three other fields. -/
theorem formatC_fields {w : Word} (h : rsvField w = 0) : formatC (depthField w) (chField w) (opField w) = w := by
  apply BitVec.eq_of_toNat_eq
  rw [formatC_toNat (depthField_lt w) (chField_lt w) (opField_lt w)]
  unfold rsvField at h
  unfold depthField chField opField
  omega

/-- Every OP code fits its field. -/
theorem Instr.opCode_lt (i : Instr) : i.opCode < 16 := by
  cases i <;> simp [Instr.opCode, inspectCode, Operation.code]

/-- What well-formedness says. -/
theorem Instr.wf_iff (i : Instr) : i.wf = true ↔ i.ch < 16 ∧ i.depth < 65536 := by
  simp [Instr.wf]

/-- The OP code of an operation names it again. -/
theorem Operation.ofCode_code (op : Operation) : Operation.ofCode op.code = some op := by cases op <;> rfl

/-! ### What the decoder answers (30_encoding R85) -/

theorem Operation.ofCode_of_le {op : Nat} (h : op ≤ 4) : ∃ o : Operation, Operation.ofCode op = some o ∧ o.code = op := by
  rcases (by omega : op = 0 ∨ op = 1 ∨ op = 2 ∨ op = 3 ∨ op = 4) with h | h | h | h | h <;> subst h
  · exact ⟨.filter, rfl, rfl⟩
  · exact ⟨.darken, rfl, rfl⟩
  · exact ⟨.gray, rfl, rfl⟩
  · exact ⟨.white, rfl, rfl⟩
  · exact ⟨.black, rfl, rfl⟩

theorem Operation.ofCode_of_ge {op : Nat} (h : 5 ≤ op) : Operation.ofCode op = none := by
  unfold Operation.ofCode
  repeat rw [if_neg (by omega)]

/-- Line 1: RSV or a reserved OP code makes the word illegal. -/
theorem decode_illegal {w : Word} (h : rsvField w ≠ 0 ∨ 6 ≤ opField w) : decode w = .error .illegalCommand := by
  unfold decode
  by_cases hr : rsvField w ≠ 0
  · rw [if_pos hr]
  · rw [if_neg hr, if_neg (by unfold inspectCode; omega), Operation.ofCode_of_ge (by omega)]

/-- Line 2: OP 5 is INSPECT. -/
theorem decode_inspect {w : Word} (hr : rsvField w = 0) (ho : opField w = 5) :
    decode w = .ok (.inspect (chField w) (depthField w)) := by
  unfold decode
  rw [if_neg (by omega), if_pos (show opField w = inspectCode from ho)]

/-- Line 3: OP 0 to 4 is an APPLY word. -/
theorem decode_apply {w : Word} (hr : rsvField w = 0) (ho : opField w ≤ 4) :
    ∃ op : Operation, op.code = opField w ∧ decode w = decodeApply (depthField w) op (chField w) := by
  obtain ⟨op, h1, h2⟩ := Operation.ofCode_of_le ho
  refine ⟨op, h2, ?_⟩
  unfold decode
  rw [if_neg (by omega), if_neg (by unfold inspectCode; omega), h1]

/-- An APPLY word at a named depth is the row of that depth and operation; at any other it is rejected. -/
theorem decodeApply_cases (depth : Nat) (op : Operation) (ch : Nat) :
    (depth ∈ [4, 8, 16, 24, 32] ∧ ∃ i, decodeApply depth op ch = .ok i ∧ i.depth = depth ∧ i.ch = ch ∧
        i.opCode = op.code) ∨
      (depth ∉ [4, 8, 16, 24, 32] ∧ decodeApply depth op ch = .error .unsupportedDepth) := by
  unfold decodeApply
  by_cases h4 : depth = 4
  · subst h4; exact .inl ⟨by simp, _, rfl, by cases op <;> exact ⟨rfl, rfl, rfl⟩⟩
  by_cases h8 : depth = 8
  · subst h8; exact .inl ⟨by simp, _, rfl, by cases op <;> exact ⟨rfl, rfl, rfl⟩⟩
  by_cases h16 : depth = 16
  · subst h16; exact .inl ⟨by simp, _, rfl, by cases op <;> exact ⟨rfl, rfl, rfl⟩⟩
  by_cases h24 : depth = 24
  · subst h24; exact .inl ⟨by simp, _, rfl, by cases op <;> exact ⟨rfl, rfl, rfl⟩⟩
  by_cases h32 : depth = 32
  · subst h32; exact .inl ⟨by simp, _, rfl, by cases op <;> exact ⟨rfl, rfl, rfl⟩⟩
  exact .inr ⟨by simp [h4, h8, h16, h24, h32], by simp [h4, h8, h16, h24, h32]⟩

/-- The illegal words are exactly those that 30_encoding R88 names. -/
theorem decode_illegal_iff {w : Word} : decode w = .error .illegalCommand ↔ rsvField w ≠ 0 ∨ 6 ≤ opField w := by
  refine ⟨fun h => ?_, decode_illegal⟩
  by_contra hill
  by_cases h5 : opField w = 5
  · rw [decode_inspect (by omega) h5] at h
    cases h
  · obtain ⟨op, _, hd⟩ := decode_apply (w := w) (by omega) (by omega)
    rw [hd] at h
    rcases decodeApply_cases (depthField w) op (chField w) with ⟨_, i, hi, _⟩ | ⟨_, he⟩
    · rw [hi] at h; cases h
    · rw [he] at h; cases h

/-- What an accepted word says of its instruction. -/
theorem decode_fields {w : Word} {i : Instr} (h : decode w = .ok i) :
    rsvField w = 0 ∧ i.ch = chField w ∧ i.depth = depthField w ∧ i.opCode = opField w := by
  by_cases hill : rsvField w ≠ 0 ∨ 6 ≤ opField w
  · rw [decode_illegal hill] at h; cases h
  have hr : rsvField w = 0 := by omega
  refine ⟨hr, ?_⟩
  by_cases h5 : opField w = 5
  · rw [decode_inspect hr h5] at h
    cases h
    exact ⟨rfl, rfl, h5.symm⟩
  · obtain ⟨op, hop, hd⟩ := decode_apply hr (by omega)
    rw [hd] at h
    rcases decodeApply_cases (depthField w) op (chField w) with ⟨_, j, hj, h1, h2, h3⟩ | ⟨_, he⟩
    · rw [hj] at h
      cases h
      exact ⟨h2, h1, h3.trans hop⟩
    · rw [he] at h; cases h

/-! ### The rows of mask and match (30_encoding R86) -/

/-- A word is its four fields. -/
theorem word_ext {w v : Word} (h1 : opField w = opField v) (h2 : chField w = chField v)
    (h3 : rsvField w = rsvField v) (h4 : depthField w = depthField v) : w = v := by
  apply BitVec.eq_of_toNat_eq
  unfold opField at h1
  unfold chField at h2
  unfold rsvField at h3
  unfold depthField at h4
  omega

/-- The fields of the bits a mask keeps, for a mask that keeps OP and RSV and no bit of CH. -/
theorem fields_and_mask (w mask : Word) (h1 : opField mask = 15) (h2 : chField mask = 0) (h3 : rsvField mask = 255) :
    opField (w &&& mask) = opField w ∧ chField (w &&& mask) = 0 ∧ rsvField (w &&& mask) = rsvField w := by
  unfold opField chField rsvField at *
  rw [BitVec.toNat_and]
  have e16 : (16 : Nat) = 2 ^ 4 := rfl
  have e256 : (256 : Nat) = 2 ^ 8 := rfl
  refine ⟨?_, ?_, ?_⟩
  · rw [e16, Nat.and_mod_two_pow, ← e16, h1]
    exact (Nat.and_two_pow_sub_one_eq_mod _ 4).trans (Nat.mod_mod _ _)
  · rw [e16, Nat.and_div_two_pow, Nat.and_mod_two_pow, ← e16, h2, Nat.and_zero]
  · rw [e256, Nat.and_div_two_pow, Nat.and_mod_two_pow, ← e256, h3]
    exact (Nat.and_two_pow_sub_one_eq_mod _ 8).trans (Nat.mod_mod _ _)

theorem depthField_and (w mask : Word) : depthField (w &&& mask) = depthField w &&& depthField mask := by
  unfold depthField
  rw [BitVec.toNat_and, show (65536 : Nat) = 2 ^ 16 from rfl, Nat.and_div_two_pow]

/-- A word matches an APPLY row when its OP, RSV and DEPTH are the row's. -/
theorem OpcodeRow.matches_apply (name : String) {bits : Word} (hch : chField bits = 0) (w : Word) :
    (OpcodeRow.mk name applyMask bits).matches w = true ↔
      opField w = opField bits ∧ rsvField w = rsvField bits ∧ depthField w = depthField bits := by
  obtain ⟨h1, h2, h3⟩ := fields_and_mask w applyMask rfl rfl rfl
  have h4 : depthField (w &&& applyMask) = depthField w := by
    rw [depthField_and]
    exact (Nat.and_two_pow_sub_one_eq_mod _ 16).trans (Nat.mod_eq_of_lt (depthField_lt w))
  simp only [OpcodeRow.matches, beq_iff_eq]
  constructor
  · intro h
    rw [h] at h1 h3 h4
    exact ⟨h1.symm, h3.symm, h4.symm⟩
  · rintro ⟨e1, e3, e4⟩
    exact word_ext (h1.trans e1) (h2.trans hch.symm) (h3.trans e3) (h4.trans e4)

/-- A word matches INSPECT's row when OP is 5 and RSV is 0. -/
theorem inspectRow_matches (w : Word) : inspectRow.matches w = true ↔ opField w = 5 ∧ rsvField w = 0 := by
  obtain ⟨h1, h2, h3⟩ := fields_and_mask w 0x0000FF0F#32 rfl rfl rfl
  have h4 : depthField (w &&& 0x0000FF0F#32) = 0 := by rw [depthField_and]; exact Nat.and_zero _
  simp only [OpcodeRow.matches, inspectRow, beq_iff_eq]
  constructor
  · intro h
    rw [h] at h1 h3
    exact ⟨h1.symm, h3.symm⟩
  · rintro ⟨e1, e3⟩
    exact word_ext (h1.trans e1) h2 (h3.trans e3) h4

/-- Five APPLY rows with the OP codes 0 to 4, RSV 0 and one depth accept the words of that depth. -/
theorem five_rows_match {depth : Nat} {n0 n1 n2 n3 n4 : String} {b0 b1 b2 b3 b4 : Word}
    (h : ∀ p ∈ [(b0, 0), (b1, 1), (b2, 2), (b3, 3), (b4, 4)],
      chField p.1 = 0 ∧ rsvField p.1 = 0 ∧ opField p.1 = p.2 ∧ depthField p.1 = depth) (w : Word) :
    (∃ r ∈ [OpcodeRow.mk n0 applyMask b0, ⟨n1, applyMask, b1⟩, ⟨n2, applyMask, b2⟩, ⟨n3, applyMask, b3⟩,
        ⟨n4, applyMask, b4⟩], r.matches w = true) ↔
      rsvField w = 0 ∧ opField w ≤ 4 ∧ depthField w = depth := by
  have row : ∀ (name : String) (bits : Word) (op : Nat),
      (chField bits = 0 ∧ rsvField bits = 0 ∧ opField bits = op ∧ depthField bits = depth) →
      ((OpcodeRow.mk name applyMask bits).matches w = true ↔
        opField w = op ∧ rsvField w = 0 ∧ depthField w = depth) := by
    rintro name bits op ⟨h1, h2, h3, h4⟩
    rw [OpcodeRow.matches_apply name h1, h2, h3, h4]
  simp only [List.mem_cons, List.not_mem_nil, or_false, exists_eq_or_imp, exists_eq_left,
    row n0 b0 0 (h (b0, 0) (by simp)), row n1 b1 1 (h (b1, 1) (by simp)), row n2 b2 2 (h (b2, 2) (by simp)),
    row n3 b3 3 (h (b3, 3) (by simp)), row n4 b4 4 (h (b4, 4) (by simp))]
  omega

/-- The words the table accepts, by their fields. -/
theorem opcodeTable_match (w : Word) :
    (∃ r ∈ opcodeTable, r.matches w = true) ↔
      rsvField w = 0 ∧ (opField w = 5 ∨ (opField w ≤ 4 ∧ depthField w ∈ [4, 8, 16, 24, 32])) := by
  have h4 : (∃ r ∈ rowsDepth4, r.matches w = true) ↔ _ := five_rows_match (depth := 4) (by decide) w
  have h8 : (∃ r ∈ rowsDepth8, r.matches w = true) ↔ _ := five_rows_match (depth := 8) (by decide) w
  have h16 : (∃ r ∈ rowsDepth16, r.matches w = true) ↔ _ := five_rows_match (depth := 16) (by decide) w
  have h24 : (∃ r ∈ rowsDepth24, r.matches w = true) ↔ _ := five_rows_match (depth := 24) (by decide) w
  have h32 : (∃ r ∈ rowsDepth32, r.matches w = true) ↔ _ := five_rows_match (depth := 32) (by decide) w
  unfold opcodeTable
  simp only [List.mem_cons, List.mem_append, or_and_right, exists_or, exists_eq_left, h4, h8, h16, h24, h32,
    inspectRow_matches, List.not_mem_nil, or_false]
  omega

/-- Two rows that a fixed bit tells apart match no word in common. -/
theorem OpcodeRow.apart_sound {r q : OpcodeRow} (h : r.apart q = true) (w : Word) :
    ¬(r.matches w = true ∧ q.matches w = true) := by
  rintro ⟨hr, hq⟩
  simp only [OpcodeRow.matches, beq_iff_eq] at hr hq
  simp only [OpcodeRow.apart, bne_iff_ne, ne_eq] at h
  apply h
  rw [← hr, ← hq]
  ext k hk
  simp only [BitVec.getElem_and, BitVec.getElem_xor, BitVec.getElem_zero]
  cases w[k] <;> cases r.mask[k] <;> cases q.mask[k] <;> rfl

end Sys2Proof
end

