-- ==== Sys2Proof/Laws/State.lean ====
section
/-! SUPPORT. One lemma per field per named update of the state, all true by unfolding the update once. -/

namespace Sys2Proof.Machine

/-! ### State.endCommand -/

@[simp] theorem State.endCommand_cap (s : State) (c : Code) : (s.endCommand c).cap = s.cap := rfl
@[simp] theorem State.endCommand_cmd (s : State) (c : Code) : (s.endCommand c).cmd = s.cmd := rfl
@[simp] theorem State.endCommand_status (s : State) (c : Code) : (s.endCommand c).status = Status.ended c := rfl
@[simp] theorem State.endCommand_len (s : State) (c : Code) : (s.endCommand c).len = s.len := rfl
@[simp] theorem State.endCommand_hSize (s : State) (c : Code) : (s.endCommand c).hSize = s.hSize := rfl
@[simp] theorem State.endCommand_hOff (s : State) (c : Code) : (s.endCommand c).hOff = s.hOff := rfl
@[simp] theorem State.endCommand_hWidth (s : State) (c : Code) : (s.endCommand c).hWidth = s.hWidth := rfl
@[simp] theorem State.endCommand_hHeight (s : State) (c : Code) : (s.endCommand c).hHeight = s.hHeight := rfl
@[simp] theorem State.endCommand_hBpp (s : State) (c : Code) : (s.endCommand c).hBpp = s.hBpp := rfl
@[simp] theorem State.endCommand_buf (s : State) (c : Code) : (s.endCommand c).buf = s.buf := rfl
@[simp] theorem State.endCommand_done (s : State) (c : Code) : (s.endCommand c).done = true := rfl
@[simp] theorem State.endCommand_host (s : State) (c : Code) : (s.endCommand c).host = s.host := rfl
@[simp] theorem State.endCommand_seen (s : State) (c : Code) : (s.endCommand c).seen = s.seen := rfl

/-! ### State.loadHeader -/

@[simp] theorem State.loadHeader_cap (s : State) (h : Header) : (s.loadHeader h).cap = s.cap := rfl
@[simp] theorem State.loadHeader_cmd (s : State) (h : Header) : (s.loadHeader h).cmd = s.cmd := rfl
@[simp] theorem State.loadHeader_status (s : State) (h : Header) : (s.loadHeader h).status = s.status := rfl
@[simp] theorem State.loadHeader_len (s : State) (h : Header) : (s.loadHeader h).len = s.len := rfl
@[simp] theorem State.loadHeader_hSize (s : State) (h : Header) : (s.loadHeader h).hSize = BitVec.ofNat 32 h.size := rfl
@[simp] theorem State.loadHeader_hOff (s : State) (h : Header) : (s.loadHeader h).hOff = BitVec.ofNat 32 h.offset := rfl
@[simp] theorem State.loadHeader_hWidth (s : State) (h : Header) : (s.loadHeader h).hWidth = BitVec.ofNat 32 h.width := rfl
@[simp] theorem State.loadHeader_hHeight (s : State) (h : Header) : (s.loadHeader h).hHeight = BitVec.ofNat 32 h.height := rfl
@[simp] theorem State.loadHeader_hBpp (s : State) (h : Header) : (s.loadHeader h).hBpp = BitVec.setWidth 32 (BitVec.ofNat 16 h.bpp) := rfl
@[simp] theorem State.loadHeader_buf (s : State) (h : Header) : (s.loadHeader h).buf = s.buf := rfl
@[simp] theorem State.loadHeader_done (s : State) (h : Header) : (s.loadHeader h).done = s.done := rfl
@[simp] theorem State.loadHeader_host (s : State) (h : Header) : (s.loadHeader h).host = s.host := rfl
@[simp] theorem State.loadHeader_seen (s : State) (h : Header) : (s.loadHeader h).seen = s.seen := rfl

/-! ### State.acceptCommand -/

@[simp] theorem State.acceptCommand_cap (s : State) (w : Word) : (s.acceptCommand w).cap = s.cap := rfl
@[simp] theorem State.acceptCommand_cmd (s : State) (w : Word) : (s.acceptCommand w).cmd = w := rfl
@[simp] theorem State.acceptCommand_status (s : State) (w : Word) : (s.acceptCommand w).status = s.status.started := rfl
@[simp] theorem State.acceptCommand_len (s : State) (w : Word) : (s.acceptCommand w).len = s.len := rfl
@[simp] theorem State.acceptCommand_hSize (s : State) (w : Word) : (s.acceptCommand w).hSize = s.hSize := rfl
@[simp] theorem State.acceptCommand_hOff (s : State) (w : Word) : (s.acceptCommand w).hOff = s.hOff := rfl
@[simp] theorem State.acceptCommand_hWidth (s : State) (w : Word) : (s.acceptCommand w).hWidth = s.hWidth := rfl
@[simp] theorem State.acceptCommand_hHeight (s : State) (w : Word) : (s.acceptCommand w).hHeight = s.hHeight := rfl
@[simp] theorem State.acceptCommand_hBpp (s : State) (w : Word) : (s.acceptCommand w).hBpp = s.hBpp := rfl
@[simp] theorem State.acceptCommand_buf (s : State) (w : Word) : (s.acceptCommand w).buf = s.buf := rfl
@[simp] theorem State.acceptCommand_done (s : State) (w : Word) : (s.acceptCommand w).done = s.done := rfl
@[simp] theorem State.acceptCommand_host (s : State) (w : Word) : (s.acceptCommand w).host = s.host := rfl
@[simp] theorem State.acceptCommand_seen (s : State) (w : Word) : (s.acceptCommand w).seen = s.seen := rfl

/-! ### State.answer -/

@[simp] theorem State.answer_cap (s : State) (a : Answer) : (s.answer a).cap = s.cap := rfl
@[simp] theorem State.answer_cmd (s : State) (a : Answer) : (s.answer a).cmd = s.cmd := rfl
@[simp] theorem State.answer_status (s : State) (a : Answer) : (s.answer a).status = s.status := rfl
@[simp] theorem State.answer_len (s : State) (a : Answer) : (s.answer a).len = s.len := rfl
@[simp] theorem State.answer_hSize (s : State) (a : Answer) : (s.answer a).hSize = s.hSize := rfl
@[simp] theorem State.answer_hOff (s : State) (a : Answer) : (s.answer a).hOff = s.hOff := rfl
@[simp] theorem State.answer_hWidth (s : State) (a : Answer) : (s.answer a).hWidth = s.hWidth := rfl
@[simp] theorem State.answer_hHeight (s : State) (a : Answer) : (s.answer a).hHeight = s.hHeight := rfl
@[simp] theorem State.answer_hBpp (s : State) (a : Answer) : (s.answer a).hBpp = s.hBpp := rfl
@[simp] theorem State.answer_buf (s : State) (a : Answer) : (s.answer a).buf = s.buf := rfl
@[simp] theorem State.answer_done (s : State) (a : Answer) : (s.answer a).done = s.done := rfl
@[simp] theorem State.answer_host (s : State) (a : Answer) : (s.answer a).host = s.host := rfl
@[simp] theorem State.answer_seen (s : State) (a : Answer) : (s.answer a).seen = s.seen ++ [a] := rfl

/-! ### State.take -/

@[simp] theorem State.take_cap (s : State) (rest : List HostMove) : (s.take rest).cap = s.cap := rfl
@[simp] theorem State.take_cmd (s : State) (rest : List HostMove) : (s.take rest).cmd = s.cmd := rfl
@[simp] theorem State.take_status (s : State) (rest : List HostMove) : (s.take rest).status = s.status := rfl
@[simp] theorem State.take_len (s : State) (rest : List HostMove) : (s.take rest).len = s.len := rfl
@[simp] theorem State.take_hSize (s : State) (rest : List HostMove) : (s.take rest).hSize = s.hSize := rfl
@[simp] theorem State.take_hOff (s : State) (rest : List HostMove) : (s.take rest).hOff = s.hOff := rfl
@[simp] theorem State.take_hWidth (s : State) (rest : List HostMove) : (s.take rest).hWidth = s.hWidth := rfl
@[simp] theorem State.take_hHeight (s : State) (rest : List HostMove) : (s.take rest).hHeight = s.hHeight := rfl
@[simp] theorem State.take_hBpp (s : State) (rest : List HostMove) : (s.take rest).hBpp = s.hBpp := rfl
@[simp] theorem State.take_buf (s : State) (rest : List HostMove) : (s.take rest).buf = s.buf := rfl
@[simp] theorem State.take_done (s : State) (rest : List HostMove) : (s.take rest).done = false := rfl
@[simp] theorem State.take_host (s : State) (rest : List HostMove) : (s.take rest).host = rest := rfl
@[simp] theorem State.take_seen (s : State) (rest : List HostMove) : (s.take rest).seen = s.seen := rfl

/-! ### State.offerCommand -/

@[simp] theorem State.offerCommand_cap (s : State) (w : Word) : (s.offerCommand w).cap = s.cap := rfl
@[simp] theorem State.offerCommand_cmd (s : State) (w : Word) : (s.offerCommand w).cmd = s.cmd := rfl
@[simp] theorem State.offerCommand_status (s : State) (w : Word) : (s.offerCommand w).status = { s.status with busy := false } := rfl
@[simp] theorem State.offerCommand_len (s : State) (w : Word) : (s.offerCommand w).len = s.len := rfl
@[simp] theorem State.offerCommand_hSize (s : State) (w : Word) : (s.offerCommand w).hSize = s.hSize := rfl
@[simp] theorem State.offerCommand_hOff (s : State) (w : Word) : (s.offerCommand w).hOff = s.hOff := rfl
@[simp] theorem State.offerCommand_hWidth (s : State) (w : Word) : (s.offerCommand w).hWidth = s.hWidth := rfl
@[simp] theorem State.offerCommand_hHeight (s : State) (w : Word) : (s.offerCommand w).hHeight = s.hHeight := rfl
@[simp] theorem State.offerCommand_hBpp (s : State) (w : Word) : (s.offerCommand w).hBpp = s.hBpp := rfl
@[simp] theorem State.offerCommand_buf (s : State) (w : Word) : (s.offerCommand w).buf = s.buf := rfl
@[simp] theorem State.offerCommand_done (s : State) (w : Word) : (s.offerCommand w).done = s.done := rfl
@[simp] theorem State.offerCommand_host (s : State) (w : Word) : (s.offerCommand w).host = .regWrite cmdOffset .word w :: s.host := rfl
@[simp] theorem State.offerCommand_seen (s : State) (w : Word) : (s.offerCommand w).seen = s.seen := rfl

/-! ### State.resetFor and State.afterReset -/

@[simp] theorem State.resetFor_cap (cap : Word) : (State.resetFor cap).cap = cap := rfl
@[simp] theorem State.resetFor_cmd (cap : Word) : (State.resetFor cap).cmd = 0#32 := rfl
@[simp] theorem State.resetFor_status (cap : Word) : (State.resetFor cap).status = ⟨.ok, false⟩ := rfl
@[simp] theorem State.resetFor_len (cap : Word) : (State.resetFor cap).len = 0#32 := rfl
@[simp] theorem State.resetFor_hSize (cap : Word) : (State.resetFor cap).hSize = 0#32 := rfl
@[simp] theorem State.resetFor_hOff (cap : Word) : (State.resetFor cap).hOff = 0#32 := rfl
@[simp] theorem State.resetFor_hWidth (cap : Word) : (State.resetFor cap).hWidth = 0#32 := rfl
@[simp] theorem State.resetFor_hHeight (cap : Word) : (State.resetFor cap).hHeight = 0#32 := rfl
@[simp] theorem State.resetFor_hBpp (cap : Word) : (State.resetFor cap).hBpp = 0#32 := rfl
@[simp] theorem State.resetFor_buf (cap : Word) : (State.resetFor cap).buf = [] := rfl
@[simp] theorem State.resetFor_done (cap : Word) : (State.resetFor cap).done = false := rfl
@[simp] theorem State.resetFor_host (cap : Word) : (State.resetFor cap).host = [] := rfl
@[simp] theorem State.resetFor_seen (cap : Word) : (State.resetFor cap).seen = [] := rfl

@[simp] theorem State.afterReset_cap (s : State) : s.afterReset.cap = s.cap := rfl
@[simp] theorem State.afterReset_cmd (s : State) : s.afterReset.cmd = 0#32 := rfl
@[simp] theorem State.afterReset_status (s : State) : s.afterReset.status = ⟨.ok, false⟩ := rfl
@[simp] theorem State.afterReset_len (s : State) : s.afterReset.len = 0#32 := rfl
@[simp] theorem State.afterReset_hSize (s : State) : s.afterReset.hSize = 0#32 := rfl
@[simp] theorem State.afterReset_hOff (s : State) : s.afterReset.hOff = 0#32 := rfl
@[simp] theorem State.afterReset_hWidth (s : State) : s.afterReset.hWidth = 0#32 := rfl
@[simp] theorem State.afterReset_hHeight (s : State) : s.afterReset.hHeight = 0#32 := rfl
@[simp] theorem State.afterReset_hBpp (s : State) : s.afterReset.hBpp = 0#32 := rfl
@[simp] theorem State.afterReset_buf (s : State) : s.afterReset.buf = [] := rfl
@[simp] theorem State.afterReset_done (s : State) : s.afterReset.done = false := rfl
@[simp] theorem State.afterReset_host (s : State) : s.afterReset.host = s.host := rfl
@[simp] theorem State.afterReset_seen (s : State) : s.afterReset.seen = s.seen := rfl

/-! ### Status -/

@[simp] theorem Status.ended_code (c : Code) : (Status.ended c).code = c := rfl
@[simp] theorem Status.ended_busy (c : Code) : (Status.ended c).busy = false := rfl
@[simp] theorem Status.started_code (st : Status) : st.started.code = st.code := rfl
@[simp] theorem Status.started_busy (st : Status) : st.started.busy = true := rfl

/-- The two ways a command ends are one state update. -/
theorem finish_eq (s : State) : finish s = .next (s.endCommand .ok) := rfl

theorem raise_eq (c : Code) (s : State) : raise c s = .next (s.endCommand c) := rfl

end Sys2Proof.Machine
end

