-- ==== Sys2Proof/Laws/Memory.lean ====
section
/-! SUPPORT. The laws of BUF: a read after a write, the canonical form and the capacity kept by every write, and what
a little-endian read depends on. -/

namespace Sys2Proof.Machine

/-! ### Read after write -/

theorem Memory.read_write (m : Memory) (a : Nat) (v : Byte) (c : Nat) :
    (m.write a v).read c = if c = a then some v else m.read c := by
  induction m with
  | nil => simp [Memory.write, Memory.read]
  | cons cell rest ih =>
    obtain ⟨b, u⟩ := cell
    simp only [Memory.write]
    split
    · simp [Memory.read]
    · split
      · rename_i h; subst h; simp only [Memory.read]; split <;> rfl
      · rename_i h1 h2
        simp only [Memory.read, ih]
        split
        · rename_i h; subst h; rw [if_neg (Ne.symm h2)]
        · rfl

@[simp] theorem Memory.read_write_same (m : Memory) (a : Nat) (v : Byte) : (m.write a v).read a = some v := by
  simp [Memory.read_write]

theorem Memory.read_write_other (m : Memory) {a c : Nat} (v : Byte) (h : c ≠ a) :
    (m.write a v).read c = m.read c := by
  simp [Memory.read_write, h]

theorem read_writeBelow (len a : Nat) (v : Byte) (m : Memory) (c : Nat) :
    (writeBelow len a v m).read c = if c = a ∧ a < len then some v else m.read c := by
  unfold writeBelow
  split
  · rename_i h; simp [Memory.read_write, h]
  · rename_i h; simp [h]

/-! ### The canonical form and the capacity -/

theorem Memory.risingAbove_write (m : Memory) {lo a : Nat} (v : Byte) (hlo : lo < a)
    (h : m.risingAbove lo = true) : (m.write a v).risingAbove lo = true := by
  induction m generalizing lo with
  | nil => simp [Memory.write, Memory.risingAbove, hlo]
  | cons cell rest ih =>
    obtain ⟨b, u⟩ := cell
    simp only [Memory.risingAbove, Bool.and_eq_true, decide_eq_true_eq] at h
    simp only [Memory.write]
    split
    · rename_i hab; simp [Memory.risingAbove, hlo, hab, h.2]
    · split
      · rename_i hab; subst hab; simp [Memory.risingAbove, h.1, h.2]
      · rename_i h1 h2
        have hba : b < a := by omega
        simp [Memory.risingAbove, h.1, ih hba h.2]

theorem Memory.wf_write {m : Memory} (a : Nat) (v : Byte) (h : m.wf = true) : (m.write a v).wf = true := by
  cases m with
  | nil => rfl
  | cons cell rest =>
    obtain ⟨b, u⟩ := cell
    simp only [Memory.wf] at h
    simp only [Memory.write]
    split
    · rename_i hab; simp [Memory.wf, Memory.risingAbove, hab, h]
    · split
      · rename_i hab; subst hab; simpa [Memory.wf] using h
      · rename_i h1 h2
        exact Memory.risingAbove_write rest v (by omega) h

theorem Memory.below_write {m : Memory} {cap a : Nat} (v : Byte) (ha : a < cap) (h : m.below cap = true) :
    (m.write a v).below cap = true := by
  induction m with
  | nil => simp [Memory.write, Memory.below, ha]
  | cons cell rest ih =>
    obtain ⟨b, u⟩ := cell
    simp only [Memory.below, Bool.and_eq_true, decide_eq_true_eq] at h
    simp only [Memory.write]
    split
    · simp [Memory.below, ha, h]
    · split
      · simp [Memory.below, ha, h]
      · simp [Memory.below, h.1, ih h.2]

/-- A write leaves every written byte written. -/
theorem Memory.isSome_read_write {m : Memory} (a : Nat) (v : Byte) {c : Nat} (h : (m.read c).isSome = true) :
    ((m.write a v).read c).isSome = true := by
  rw [Memory.read_write]; split <;> simp_all

/-- A memory within its capacity has no byte beyond it. -/
theorem Memory.read_eq_none_of_below {m : Memory} {cap a : Nat} (h : m.below cap = true) (ha : cap ≤ a) :
    m.read a = none := by
  induction m with
  | nil => rfl
  | cons cell rest ih =>
    obtain ⟨b, u⟩ := cell
    simp only [Memory.below, Bool.and_eq_true, decide_eq_true_eq] at h
    have hne : a ≠ b := by omega
    simp [Memory.read, hne, ih h.2]

/-- In canonical form, equal reads mean equal memories: the heads agree, and so do the rests. -/
theorem Memory.read_of_risingAbove {m : Memory} {lo a : Nat} (h : m.risingAbove lo = true) (ha : a ≤ lo) :
    m.read a = none := by
  induction m generalizing lo with
  | nil => rfl
  | cons cell rest ih =>
    obtain ⟨b, u⟩ := cell
    simp only [Memory.risingAbove, Bool.and_eq_true, decide_eq_true_eq] at h
    have hne : a ≠ b := by omega
    simp only [Memory.read, if_neg hne]
    exact ih h.2 (by omega)

theorem Memory.wf_of_risingAbove {m : Memory} {lo : Nat} (h : m.risingAbove lo = true) : m.wf = true := by
  cases m with
  | nil => rfl
  | cons cell rest =>
    obtain ⟨b, u⟩ := cell
    simp only [Memory.risingAbove, Bool.and_eq_true, decide_eq_true_eq] at h
    exact h.2

/-- Memories in canonical form that read alike everywhere are the same list. -/
theorem Memory.eq_of_read_eq {m n : Memory} (hm : m.wf = true) (hn : n.wf = true)
    (h : ∀ a, m.read a = n.read a) : m = n := by
  induction m generalizing n with
  | nil =>
    cases n with
    | nil => rfl
    | cons cell rest => obtain ⟨b, u⟩ := cell; have := h b; simp [Memory.read] at this
  | cons cell rest ih =>
    obtain ⟨b, u⟩ := cell
    cases n with
    | nil => have := h b; simp [Memory.read] at this
    | cons cell' rest' =>
      obtain ⟨b', u'⟩ := cell'
      simp only [Memory.wf] at hm hn
      have hb : b = b' := by
        by_contra hne
        rcases Nat.lt_or_gt_of_ne hne with hlt | hgt
        · have := h b
          simp [Memory.read, hne, Memory.read_of_risingAbove hn (Nat.le_of_lt hlt)] at this
        · have := h b'
          simp [Memory.read, Ne.symm hne, Memory.read_of_risingAbove hm (Nat.le_of_lt hgt)] at this
      subst hb
      have hu : u = u' := by have := h b; simpa [Memory.read] using this
      subst hu
      have hrest : rest = rest' := by
        refine ih (Memory.wf_of_risingAbove hm) (Memory.wf_of_risingAbove hn) (fun a => ?_)
        by_cases hab : a = b
        · subst hab
          rw [Memory.read_of_risingAbove hm (Nat.le_refl _), Memory.read_of_risingAbove hn (Nat.le_refl _)]
        · simpa [Memory.read, hab] using h a
      rw [hrest]

/-! ### Little-endian reads -/

/-- What a little-endian read depends on: the bytes it reads. -/
theorem Memory.readLE_congr {m m' : Memory} (n : Nat) {a : Nat}
    (h : ∀ c, a ≤ c → c < a + n → m'.read c = m.read c) : m'.readLE a n = m.readLE a n := by
  induction n generalizing a with
  | zero => rfl
  | succ n ih =>
    simp only [Memory.readLE]
    rw [h a (Nat.le_refl _) (by omega), ih (fun c h1 h2 => h c (by omega) (by omega))]

/-- A little-endian read answers exactly when all its bytes are written. -/
theorem Memory.readLE_isSome (m : Memory) (n a : Nat) :
    (m.readLE a n).isSome = true ↔ m.Written a (a + n) := by
  induction n generalizing a with
  | zero => simp only [Memory.readLE, Option.isSome_some, true_iff]; intro c h1 h2; omega
  | succ n ih =>
    constructor
    · intro h
      simp only [Memory.readLE] at h
      split at h
      · rename_i b rest hb hrest
        have hw := (ih (a + 1)).1 (by simp [hrest])
        intro c h1 h2
        rcases Nat.eq_or_lt_of_le h2 with heq | hlt
        · subst heq; simp [hb]
        · exact hw c (by omega) hlt
      · simp at h
    · intro h
      have hb := h a (by omega) (Nat.le_refl _)
      have hrest := (ih (a + 1)).2 (fun c h1 h2 => h c (by omega) (by omega))
      obtain ⟨b, hb⟩ := Option.isSome_iff_exists.1 hb
      obtain ⟨r, hr⟩ := Option.isSome_iff_exists.1 hrest
      simp [Memory.readLE, hb, hr]

/-- A little-endian value of `n` bytes lies below 256 ^ n. -/
theorem Memory.readLE_lt {m : Memory} {n a v : Nat} (h : m.readLE a n = some v) : v < 256 ^ n := by
  induction n generalizing a v with
  | zero => simp [Memory.readLE] at h; subst h; simp
  | succ n ih =>
    simp only [Memory.readLE] at h
    split at h
    · rename_i b rest hb hrest
      have hr := ih hrest
      have hbl := b.isLt
      simp only [Option.some.injEq] at h
      subst h
      rw [Nat.pow_succ]
      omega
    · simp at h

/-- The header reads when bytes 2 to 29 are written. -/
theorem readHeader_isSome {m : Memory} (h : m.Written 2 30) : ∃ hd, readHeader m = some hd := by
  have key : ∀ a n, 2 ≤ a → a + n ≤ 30 → ∃ v, m.readLE a n = some v := fun a n h1 h2 =>
    Option.isSome_iff_exists.1 ((Memory.readLE_isSome m n a).2 (fun c h3 h4 => h c (by omega) (by omega)))
  obtain ⟨v1, h1⟩ := key ofsSize 4 (by decide) (by decide)
  obtain ⟨v2, h2⟩ := key ofsOff 4 (by decide) (by decide)
  obtain ⟨v3, h3⟩ := key ofsWidth 4 (by decide) (by decide)
  obtain ⟨v4, h4⟩ := key ofsHeight 4 (by decide) (by decide)
  obtain ⟨v5, h5⟩ := key ofsBpp 2 (by decide) (by decide)
  exact ⟨⟨v1, v2, v3, v4, v5⟩, by simp only [readHeader, readOffset, h1, h2, h3, h4, h5]⟩

/-- The offset reads when bytes 10 to 13 are written. -/
theorem readOffset_isSome {m : Memory} (h : m.Written 10 14) : ∃ off, readOffset m = some off :=
  Option.isSome_iff_exists.1 ((Memory.readLE_isSome m 4 10).2 h)

/-- The offset depends on bytes 10 to 13 only. -/
theorem readOffset_congr {m m' : Memory} (h : ∀ c, 10 ≤ c → c < 14 → m'.read c = m.read c) :
    readOffset m' = readOffset m :=
  Memory.readLE_congr 4 h

/-- The offset is `off` exactly when its four bytes are written and `off` is their little-endian sum. -/
theorem readOffset_eq_some_iff {m : Memory} {off : Nat} :
    readOffset m = some off ↔ ∃ b0 b1 b2 b3, m.read 10 = some b0 ∧ m.read 11 = some b1 ∧ m.read 12 = some b2 ∧
      m.read 13 = some b3 ∧ off = b0.toNat + 256 * (b1.toNat + 256 * (b2.toNat + 256 * b3.toNat)) := by
  show m.readLE 10 4 = some off ↔ _
  cases h0 : m.read 10 <;> cases h1 : m.read 11 <;> cases h2 : m.read 12 <;> cases h3 : m.read 13 <;>
    simp [Memory.readLE, h0, h1, h2, h3, eq_comm]

end Sys2Proof.Machine
end

