-- ==== Sys2Proof/Laws/Walk.lean ====
section
/-! SUPPORT. What a walk does, said once: where a visit at `i` changes only bytes of `[i, i + stride)`, as a function
of those bytes, the walk gives every byte the value its own visit gives it. -/

namespace Sys2Proof.Machine

/-- A property every visit keeps is kept by the walk. -/
theorem walk_invariant {visit : Nat → Memory → Option Memory} {stride len : Nat} {P : Memory → Prop}
    (hvisit : ∀ i m m', i < len → visit i m = some m' → P m → P m') {fuel i : Nat} {m m' : Memory}
    (hm : P m) (h : walk visit stride len fuel i m = some m') : P m' := by
  induction fuel generalizing i m with
  | zero => simp only [walk, Option.some.injEq] at h; exact h ▸ hm
  | succ fuel ih =>
    simp only [walk] at h
    split at h
    · rename_i hi
      split at h
      · cases h
      · rename_i m1 hm1; exact ih (hvisit i m m1 hi hm1 hm) h
    · simp only [Option.some.injEq] at h; exact h ▸ hm

/-- The visit that a byte `j` belongs to: the last index of the walk from `i` at or below it. -/
def visitOf (i stride j : Nat) : Nat := i + stride * ((j - i) / stride)

theorem visitOf_le {i stride j : Nat} (h : i ≤ j) : visitOf i stride j ≤ j := by
  unfold visitOf
  have := Nat.mul_div_le (j - i) stride
  omega

theorem lt_visitOf_add {i stride j : Nat} (hs : 0 < stride) (_h : i ≤ j) : j < visitOf i stride j + stride := by
  unfold visitOf
  have h1 := Nat.div_add_mod (j - i) stride
  have h2 := Nat.mod_lt (j - i) hs
  omega

theorem visitOf_self {i stride j : Nat} (h1 : i ≤ j) (h2 : j < i + stride) : visitOf i stride j = i := by
  unfold visitOf
  rw [Nat.div_eq_of_lt (by omega)]
  omega

theorem visitOf_next {i stride j : Nat} (hs : 0 < stride) (h : i + stride ≤ j) :
    visitOf (i + stride) stride j = visitOf i stride j := by
  unfold visitOf
  have h1 : j - i = (j - (i + stride)) + stride := by omega
  rw [h1, Nat.add_div_right _ hs, Nat.mul_succ]
  omega

/-- Two readings agree on the window of a visit. -/
abbrev AgreeOn (i stride : Nat) (r r' : Nat → Option Byte) : Prop := ∀ j, i ≤ j → j < i + stride → r j = r' j

/-- What the walk leaves in every byte: `spec i r j` is what the visit at `i` leaves in byte `j` when the bytes before
it read as `r`, and it depends on the window `[i, i + stride)` only. -/
theorem walk_read {visit : Nat → Memory → Option Memory} {stride len : Nat}
    {spec : Nat → (Nat → Option Byte) → Nat → Option Byte} (hs : 0 < stride)
    (hvisit : ∀ i m m', i < len → visit i m = some m' → ∀ j,
      m'.read j = if i ≤ j ∧ j < i + stride then spec i m.read j else m.read j)
    (hlocal : ∀ i r r', AgreeOn i stride r r' → ∀ j, i ≤ j → j < i + stride → spec i r j = spec i r' j)
    {fuel i : Nat} {m m' : Memory} (hf : len ≤ i + fuel) (h : walk visit stride len fuel i m = some m') (j : Nat) :
    m'.read j = if i ≤ j ∧ visitOf i stride j < len then spec (visitOf i stride j) m.read j else m.read j := by
  induction fuel generalizing i m with
  | zero =>
    simp only [walk, Option.some.injEq] at h
    subst h
    rw [if_neg]
    rintro ⟨h1, h2⟩
    have : i ≤ visitOf i stride j := Nat.le_add_right _ _
    omega
  | succ fuel ih =>
    simp only [walk] at h
    split at h
    · rename_i hi
      split at h
      · cases h
      · rename_i m1 hm1
        have hv := hvisit i m m1 hi hm1
        rw [ih (by omega) h]
        by_cases hnext : i + stride ≤ j
        · have hb : i + stride ≤ visitOf i stride j := by
            rw [← visitOf_next hs hnext]; exact Nat.le_add_right _ _
          have hself : m1.read j = m.read j := by rw [hv j, if_neg (by omega)]
          have hagree : AgreeOn (visitOf i stride j) stride m1.read m.read := fun c h1 _ => by
            rw [hv c, if_neg (by omega)]
          rw [visitOf_next hs hnext, hself,
            hlocal _ _ _ hagree j (visitOf_le (by omega)) (lt_visitOf_add hs (by omega))]
          simp only [show i + stride ≤ j from hnext, show i ≤ j by omega, true_and]
        · rw [if_neg (by omega), hv j]
          by_cases hij : i ≤ j
          · have hself : visitOf i stride j = i := visitOf_self hij (by omega)
            rw [hself, if_pos ⟨hij, by omega⟩, if_pos ⟨hij, hi⟩]
          · rw [if_neg (by omega), if_neg (by omega)]
    · rename_i hi
      simp only [Option.some.injEq] at h
      subst h
      rw [if_neg]
      rintro ⟨h1, h2⟩
      have : i ≤ visitOf i stride j := Nat.le_add_right _ _
      omega

/-- A walk completes when each visit can be made: `ok i r` says that the visit at `i` can be made where the bytes read
as `r`, it depends on the visit's window only, and no visit touches another's window. -/
theorem walk_completes {visit : Nat → Memory → Option Memory} {stride len : Nat}
    {ok : Nat → (Nat → Option Byte) → Prop}
    (hvisit : ∀ i m, i < len → ok i m.read → ∃ m', visit i m = some m')
    (hframe : ∀ i m m', i < len → visit i m = some m' → ∀ j, ¬(i ≤ j ∧ j < i + stride) → m'.read j = m.read j)
    (hlocal : ∀ i r r', AgreeOn i stride r r' → ok i r → ok i r')
    {fuel i : Nat} {m : Memory} (hok : ∀ t, i + stride * t < len → ok (i + stride * t) m.read) :
    ∃ m', walk visit stride len fuel i m = some m' := by
  induction fuel generalizing i m with
  | zero => exact ⟨m, rfl⟩
  | succ fuel ih =>
    simp only [walk]
    split
    · rename_i hi
      obtain ⟨m1, hm1⟩ := hvisit i m hi (by simpa using hok 0 (by simpa using hi))
      simp only [hm1]
      refine ih (fun t ht => ?_)
      have heq : i + stride + stride * t = i + stride * (t + 1) := by rw [Nat.mul_succ]; omega
      rw [heq] at ht ⊢
      refine hlocal _ _ _ (fun c h1 _ => ?_) (hok (t + 1) ht)
      have : stride ≤ stride * (t + 1) := Nat.le_mul_of_pos_right _ (by omega)
      exact (hframe i m m1 hi hm1 c (by omega)).symm
    · exact ⟨m, rfl⟩

/-- A walk that completes has made each of its visits, on the bytes its window held at the start. -/
theorem walk_visits {visit : Nat → Memory → Option Memory} {stride len : Nat} (hs : 0 < stride)
    (hframe : ∀ i m m', i < len → visit i m = some m' → ∀ j, ¬(i ≤ j ∧ j < i + stride) → m'.read j = m.read j)
    {fuel i : Nat} {m m' : Memory} (hf : len ≤ i + fuel) (h : walk visit stride len fuel i m = some m') (t : Nat)
    (ht : i + stride * t < len) :
    ∃ mt mt', visit (i + stride * t) mt = some mt' ∧ AgreeOn (i + stride * t) stride mt.read m.read := by
  induction fuel generalizing i m t with
  | zero =>
    have : i ≤ i + stride * t := Nat.le_add_right _ _
    omega
  | succ fuel ih =>
    have hi : i < len := Nat.lt_of_le_of_lt (Nat.le_add_right _ _) ht
    simp only [walk, if_pos hi] at h
    split at h
    · cases h
    · rename_i m1 hm1
      cases t with
      | zero => exact ⟨m, m1, hm1, fun _ _ _ => rfl⟩
      | succ t =>
        have heq : i + stride * (t + 1) = i + stride + stride * t := by rw [Nat.mul_succ]; omega
        rw [heq] at ht ⊢
        obtain ⟨mt, mt', hv, hagree⟩ := ih (by omega) h t ht
        refine ⟨mt, mt', hv, fun c h1 h2 => (hagree c h1 h2).trans ?_⟩
        have : i + stride ≤ i + stride + stride * t := Nat.le_add_right _ _
        exact hframe i m m1 hi hm1 c (by omega)

/-- A walk that starts at or beyond the end makes no visit (41_unpack_dispatch R130). -/
theorem scan_of_le {visit : Nat → Memory → Option Memory} {stride start len : Nat} {m : Memory} (h : len ≤ start) :
    scan visit stride start len m = some m := by
  unfold scan
  rw [Nat.sub_eq_zero_of_le h]
  rfl

/-- `walk_read` for the whole scan. -/
theorem scan_read {visit : Nat → Memory → Option Memory} {stride len : Nat}
    {spec : Nat → (Nat → Option Byte) → Nat → Option Byte} (hs : 0 < stride)
    (hvisit : ∀ i m m', i < len → visit i m = some m' → ∀ j,
      m'.read j = if i ≤ j ∧ j < i + stride then spec i m.read j else m.read j)
    (hlocal : ∀ i r r', AgreeOn i stride r r' → ∀ j, i ≤ j → j < i + stride → spec i r j = spec i r' j)
    {start : Nat} {m m' : Memory} (h : scan visit stride start len m = some m') (j : Nat) :
    m'.read j =
      if start ≤ j ∧ visitOf start stride j < len then spec (visitOf start stride j) m.read j else m.read j :=
  walk_read hs hvisit hlocal (by omega) h j

end Sys2Proof.Machine
end

