-- ==== Sys2Proof/Laws/Transforms.lean ====
section
/-! SUPPORT. The closed form of each transform (42_depth4 R144, 43_depth24_channel R153, R154, 44_depth24_whole R163)
and when its walk completes. -/

namespace Sys2Proof.Machine

/-! ### Stride 1: one byte a visit -/

theorem visitOf_one {i j : Nat} (h : i ≤ j) : visitOf i 1 j = j := by
  unfold visitOf; simp only [Nat.div_one]; omega

/-- `BUF[i] <- f(BUF[i])` over `[off, len)`. -/
theorem scan_modify_read {f : Byte → Byte} {off len : Nat} {m m' : Memory}
    (h : scan (visitModify f) 1 off len m = some m') (j : Nat) :
    m'.read j = if off ≤ j ∧ j < len then (m.read j).map f else m.read j := by
  rw [scan_read (spec := fun _ r j => (r j).map f) (by omega) ?_ ?_ h j]
  · by_cases hj : off ≤ j
    · rw [visitOf_one hj]
    · rw [if_neg (fun h => hj h.1), if_neg (fun h => hj h.1)]
  · intro i m m' _ hv c
    unfold visitModify at hv
    split at hv
    · cases hv
    · rename_i b hb
      simp only [Option.some.injEq] at hv
      subst hv
      rw [Memory.read_write]
      by_cases hc : c = i
      · subst hc; rw [if_pos rfl, if_pos (by omega), hb]; rfl
      · rw [if_neg hc, if_neg (by omega)]
  · intro i r r' hr c h1 h2
    exact congrArg (Option.map f) (hr c h1 h2)

theorem scan_modify_completes (f : Byte → Byte) {off len : Nat} {m : Memory} (h : m.Written off len) :
    ∃ m', scan (visitModify f) 1 off len m = some m' := by
  refine walk_completes (ok := fun i r => (r i).isSome = true) ?_ ?_ ?_ ?_
  · intro i m _ hi
    obtain ⟨b, hb⟩ := Option.isSome_iff_exists.1 hi
    exact ⟨_, by simp only [visitModify, hb]; rfl⟩
  · intro i m m' _ hv c hc
    unfold visitModify at hv
    split at hv
    · cases hv
    · simp only [Option.some.injEq] at hv
      subst hv
      exact Memory.read_write_other _ _ (by omega)
  · intro i r r' hr hi
    rw [← hr i (Nat.le_refl _) (by omega)]; exact hi
  · intro t ht
    exact h _ ht (by omega)

/-- A visit of a modifying walk changes only its own byte. -/
theorem visitModify_frame {f : Byte → Byte} {i : Nat} {m m' : Memory} (hv : visitModify f i m = some m') {j : Nat}
    (hj : ¬(i ≤ j ∧ j < i + 1)) : m'.read j = m.read j := by
  unfold visitModify at hv
  split at hv
  · cases hv
  · simp only [Option.some.injEq] at hv
    subst hv
    exact Memory.read_write_other _ _ (by omega)

/-- A modifying walk that completes has read every byte of `[off, len)`. -/
theorem scan_modify_written {f : Byte → Byte} {off len : Nat} {m m' : Memory}
    (h : scan (visitModify f) 1 off len m = some m') : m.Written off len := by
  intro a h1 h2
  obtain ⟨mt, mt', hv, hagree⟩ :=
    walk_visits (by omega) (fun i m m' _ hv j hj => visitModify_frame hv hj) (by omega) h (a - off) (by omega)
  have ha : off + 1 * (a - off) = a := by omega
  rw [ha] at hv hagree
  rw [← hagree a (Nat.le_refl _) (by omega)]
  unfold visitModify at hv
  split at hv
  · cases hv
  · rename_i b hb; simp [hb]

/-- Every byte of `[off, len)` set to one value. -/
theorem floodWalk24_read {v : Byte} {off len : Nat} {m m' : Memory} (h : floodWalk24 v off len m = some m') (j : Nat) :
    m'.read j = if off ≤ j ∧ j < len then some v else m.read j := by
  unfold floodWalk24 at h
  rw [scan_read (spec := fun _ _ _ => some v) (by omega) ?_ ?_ h j]
  · by_cases hj : off ≤ j
    · rw [visitOf_one hj]
    · rw [if_neg (fun h => hj h.1), if_neg (fun h => hj h.1)]
  · intro i m m' _ hv c
    simp only [visitFill, Option.some.injEq] at hv
    subst hv
    rw [Memory.read_write]
    by_cases hc : c = i
    · rw [if_pos hc, if_pos (by omega)]
    · rw [if_neg hc, if_neg (by omega)]
  · intros; rfl

theorem scan_fill_completes (v : Byte) {stride : Nat} (hs : 0 < stride) (start len : Nat) (m : Memory) :
    ∃ m', scan (visitFill v) stride start len m = some m' := by
  refine walk_completes (ok := fun _ _ => True) (fun _ _ _ _ => ⟨_, rfl⟩) ?_ (fun _ _ _ _ _ => trivial)
    (fun _ _ => trivial)
  intro i m m' _ hv c hc
  simp only [Option.some.injEq] at hv
  subst hv
  exact Memory.read_write_other _ _ (by omega)

/-! ### Stride 3: depth 24 -/

/-- FILTER.24 zeroes the bytes of phase `c` (43_depth24_channel R153). -/
theorem filterWalk24_read {ch off len : Nat} {m m' : Memory} (hch : ch < 3)
    (h : filterWalk24 ch off len m = some m') (j : Nat) :
    m'.read j = if off ≤ j ∧ j < len ∧ (j - off) % 3 = ch then some 0#8 else m.read j := by
  unfold filterWalk24 channelByteIndex at h
  rw [scan_read (spec := fun i r j => if j = i then some 0#8 else r j) (by omega) ?_ ?_ h j]
  · unfold visitOf
    by_cases hj : off ≤ j ∧ j < len ∧ (j - off) % 3 = ch
    · rw [if_pos hj, if_pos (by omega), if_pos (by omega)]
    · rw [if_neg hj]
      split
      · rw [if_neg (by omega)]
      · rfl
  · intro i m m' _ hv c
    simp only [visitFill, Option.some.injEq] at hv
    subst hv
    rw [Memory.read_write]
    by_cases hc : c = i
    · simp [hc]
    · simp [hc]
  · intro i r r' hr c h1 h2
    simp only [hr c h1 h2]

/-- DARKEN.24 zeroes every byte after the first visited one that is not of phase `c` (43_depth24_channel R154). -/
theorem darkenWalk24_read {ch off len : Nat} {m m' : Memory} (hch : ch < 3)
    (h : darkenWalk24 ch off len m = some m') (j : Nat) :
    m'.read j = if off ≤ j ∧ j < len ∧ ch < j - off ∧ (j - off) % 3 ≠ ch then some 0#8 else m.read j := by
  unfold darkenWalk24 channelByteIndex at h
  rw [scan_read (spec := fun i r j => if j ≠ i ∧ j < len then some 0#8 else r j) (by omega) ?_ ?_ h j]
  · unfold visitOf
    by_cases hj : off ≤ j ∧ j < len ∧ ch < j - off ∧ (j - off) % 3 ≠ ch
    · rw [if_pos hj, if_pos (by omega), if_pos (by omega)]
    · rw [if_neg hj]
      split
      · rw [if_neg (by omega)]
      · rfl
  · intro i m m' _ hv c
    simp only [darkenVisit24, Option.some.injEq] at hv
    subst hv
    rw [read_writeBelow, read_writeBelow]
    by_cases h2 : c = i + 2 ∧ i + 2 < len
    · rw [if_pos h2, if_pos (by omega), if_pos (by omega)]
    · rw [if_neg h2]
      by_cases h1 : c = i + 1 ∧ i + 1 < len
      · rw [if_pos h1, if_pos (by omega), if_pos (by omega)]
      · rw [if_neg h1]
        split
        · rw [if_neg (by omega)]
        · rfl
  · intro i r r' hr c h1 h2
    simp only [hr c h1 h2]

theorem darkenWalk24_completes (ch off len : Nat) (m : Memory) : ∃ m', darkenWalk24 ch off len m = some m' := by
  refine walk_completes (ok := fun _ _ => True) (fun _ _ _ _ => ⟨_, rfl⟩) ?_ (fun _ _ _ _ _ => trivial)
    (fun _ _ => trivial)
  intro i m m' _ hv c hc
  simp only [Option.some.injEq] at hv
  subst hv
  rw [read_writeBelow, read_writeBelow, if_neg (by omega), if_neg (by omega)]

/-- The average of the three bytes from `g`, where they have values. -/
def averageAt (r : Nat → Option Byte) (g : Nat) : Option Byte :=
  match r g, r (g + 1), r (g + 2) with
  | some g0, some g1, some g2 => some (pixelAverage (unpack24 g0 g1 g2))
  | _, _, _ => none

/-- The first address of `j`'s group, counted from `off` (44_depth24_whole R163). -/
def groupStart (off j : Nat) : Nat := off + 3 * ((j - off) / 3)

theorem read_writePixel (m : Memory) (i : Nat) (v : Byte) (c : Nat) :
    (writePixel m i v).read c = if i ≤ c ∧ c < i + 3 then some v else m.read c := by
  unfold writePixel
  simp only [Memory.read_write]
  by_cases h : i ≤ c ∧ c < i + 3
  · rw [if_pos h]
    by_cases h2 : c = i + 2
    · rw [if_pos h2]
    · rw [if_neg h2]
      by_cases h1 : c = i + 1
      · rw [if_pos h1]
      · rw [if_neg h1, if_pos (by omega)]
  · rw [if_neg h, if_neg (by omega), if_neg (by omega), if_neg (by omega)]

/-- GRAY.24 gives every byte of a whole group the group's average (44_depth24_whole R163). -/
theorem grayWalk24_read {off len : Nat} {m m' : Memory} (h : grayWalk24 off len m = some m') (j : Nat) :
    m'.read j =
      if off ≤ j ∧ groupStart off j + 2 < len then averageAt m.read (groupStart off j) else m.read j := by
  unfold grayWalk24 at h
  rw [scan_read (spec := fun i r j => if i + 2 < len then averageAt r i else r j) (by omega) ?_ ?_ h j]
  · show (if off ≤ j ∧ groupStart off j < len then
      (if groupStart off j + 2 < len then averageAt m.read (groupStart off j) else m.read j) else m.read j) = _
    by_cases hj : off ≤ j ∧ groupStart off j + 2 < len
    · rw [if_pos hj, if_pos (by omega), if_pos (by omega)]
    · rw [if_neg hj]
      split
      · rw [if_neg (by omega)]
      · rfl
  · intro i m m' _ hv c
    unfold grayVisit24 at hv
    split at hv
    · rename_i hi
      split at hv
      · rename_i g0 g1 g2 h0 h1 h2
        simp only [Option.some.injEq] at hv
        subst hv
        rw [read_writePixel]
        by_cases hc : i ≤ c ∧ c < i + 3
        · rw [if_pos hc, if_pos hc, if_pos hi]
          simp only [averageAt, h0, h1, h2]
        · rw [if_neg hc, if_neg hc]
      · cases hv
    · rename_i hi
      simp only [Option.some.injEq] at hv
      subst hv
      simp [hi]
  · intro i r r' hr c h1 h2
    simp only [averageAt, hr c h1 h2, hr i (Nat.le_refl _) (by omega), hr (i + 1) (by omega) (by omega),
      hr (i + 2) (by omega) (by omega)]

/-- GRAY.24 completes when the bytes of its whole groups are written. -/
theorem grayWalk24_completes {off len : Nat} {m : Memory}
    (h : ∀ t, off + 3 * t + 2 < len → m.Written (off + 3 * t) (off + 3 * t + 3)) :
    ∃ m', grayWalk24 off len m = some m' := by
  refine walk_completes
    (ok := fun i r => i + 2 < len → (r i).isSome = true ∧ (r (i + 1)).isSome = true ∧ (r (i + 2)).isSome = true)
    ?_ ?_ ?_ ?_
  · intro i m _ hok
    unfold grayVisit24
    split
    · rename_i hi
      obtain ⟨h0, h1, h2⟩ := hok hi
      obtain ⟨g0, h0⟩ := Option.isSome_iff_exists.1 h0
      obtain ⟨g1, h1⟩ := Option.isSome_iff_exists.1 h1
      obtain ⟨g2, h2⟩ := Option.isSome_iff_exists.1 h2
      exact ⟨_, by simp only [h0, h1, h2]; rfl⟩
    · exact ⟨_, rfl⟩
  · intro i m m' _ hv c hc
    unfold grayVisit24 at hv
    split at hv
    · split at hv
      · simp only [Option.some.injEq] at hv
        subst hv
        rw [read_writePixel, if_neg hc]
      · cases hv
    · simp only [Option.some.injEq] at hv
      rw [← hv]
  · intro i r r' hr hok hi
    rw [← hr i (Nat.le_refl _) (by omega), ← hr (i + 1) (by omega) (by omega), ← hr (i + 2) (by omega) (by omega)]
    exact hok hi
  · intro t _ hi
    have hw := h t hi
    exact ⟨hw _ (by omega) (Nat.le_refl _), hw _ (by omega) (by omega), hw _ (by omega) (by omega)⟩

/-- A visit of GRAY.24 changes only its own group. -/
theorem grayVisit24_frame {len i : Nat} {m m' : Memory} (hv : grayVisit24 len i m = some m') {j : Nat}
    (hj : ¬(i ≤ j ∧ j < i + 3)) : m'.read j = m.read j := by
  unfold grayVisit24 at hv
  split at hv
  · split at hv
    · simp only [Option.some.injEq] at hv
      subst hv
      rw [read_writePixel, if_neg hj]
    · cases hv
  · simp only [Option.some.injEq] at hv
    rw [← hv]

/-- GRAY.24 that completes has read every byte of its whole groups. -/
theorem grayWalk24_written {off len : Nat} {m m' : Memory} (h : grayWalk24 off len m = some m') {a : Nat}
    (h1 : off ≤ a) (h2 : groupStart off a + 2 < len) : (m.read a).isSome = true := by
  obtain ⟨mt, mt', hv, hagree⟩ :=
    walk_visits (by omega) (fun i m m' _ hv j hj => grayVisit24_frame hv hj) (by omega) h ((a - off) / 3)
      (by unfold groupStart at h2; omega)
  change grayVisit24 len (groupStart off a) mt = some mt' at hv
  have hg : groupStart off a ≤ a ∧ a < groupStart off a + 3 := by unfold groupStart; omega
  rw [← hagree a hg.1 hg.2]
  unfold grayVisit24 at hv
  rw [if_pos h2] at hv
  split at hv
  · rename_i g0 g1 g2 h0 h1' h2'
    rcases (by omega : a = groupStart off a ∨ a = groupStart off a + 1 ∨ a = groupStart off a + 2) with ha | ha | ha
    · rw [ha, h0]; rfl
    · rw [ha, h1']; rfl
    · rw [ha, h2']; rfl
  · cases hv

/-! ### What every transform keeps -/

/-- The transforms: the seven walks an APPLY command can run. -/
inductive IsTransform : (Nat → Nat → Memory → Option Memory) → Prop where
  | filter4 (ch : Nat) : IsTransform (filterWalk4 ch)
  | darken4 (ch : Nat) : IsTransform (darkenWalk4 ch)
  | filter24 (ch : Nat) (h : ch < 3) : IsTransform (filterWalk24 ch)
  | darken24 (ch : Nat) (h : ch < 3) : IsTransform (darkenWalk24 ch)
  | gray24 : IsTransform grayWalk24
  | flood24 (v : Byte) : IsTransform (floodWalk24 v)

/-- A transform writes nothing outside `[off, len)` (41_unpack_dispatch R131). -/
theorem IsTransform.frame {T : Nat → Nat → Memory → Option Memory} (hT : IsTransform T) {off len : Nat}
    {m m' : Memory} (h : T off len m = some m') {a : Nat} (ha : ¬(off ≤ a ∧ a < len)) : m'.read a = m.read a := by
  cases hT with
  | filter4 ch => rw [scan_modify_read h, if_neg ha]
  | darken4 ch => rw [scan_modify_read h, if_neg ha]
  | filter24 ch hch => rw [filterWalk24_read hch h, if_neg (by omega)]
  | darken24 ch hch => rw [darkenWalk24_read hch h, if_neg (by omega)]
  | gray24 =>
    rw [grayWalk24_read h, if_neg]
    unfold groupStart
    omega
  | flood24 v => rw [floodWalk24_read h, if_neg ha]

/-- Whatever single writes below `len` keep, a transform keeps. -/
theorem IsTransform.keeps {T : Nat → Nat → Memory → Option Memory} (hT : IsTransform T) {off len : Nat}
    {P : Memory → Prop} (hP : ∀ m a v, a < len → P m → P (m.write a v)) {m m' : Memory} (hm : P m)
    (h : T off len m = some m') : P m' := by
  have modify : ∀ f : Byte → Byte, ∀ i m m', i < len → visitModify f i m = some m' → P m → P m' := by
    intro f i m m' hi hv hm
    unfold visitModify at hv
    split at hv
    · cases hv
    · simp only [Option.some.injEq] at hv; exact hv ▸ hP _ _ _ hi hm
  have fill : ∀ v, ∀ i m m', i < len → visitFill v i m = some m' → P m → P m' := by
    intro v i m m' hi hv hm
    simp only [visitFill, Option.some.injEq] at hv; exact hv ▸ hP _ _ _ hi hm
  have guarded : ∀ a v m, P m → P (writeBelow len a v m) := by
    intro a v m hm
    unfold writeBelow
    split
    · rename_i ha; exact hP _ _ _ ha hm
    · exact hm
  cases hT with
  | filter4 ch => exact walk_invariant (modify _) hm h
  | darken4 ch => exact walk_invariant (modify _) hm h
  | filter24 ch _ => exact walk_invariant (fill _) hm h
  | darken24 ch _ =>
    refine walk_invariant (fun i m m' _ hv hm => ?_) hm h
    simp only [darkenVisit24, Option.some.injEq] at hv
    exact hv ▸ guarded _ _ _ (guarded _ _ _ hm)
  | gray24 =>
    refine walk_invariant (fun i m m' _ hv hm => ?_) hm h
    unfold grayVisit24 at hv
    split at hv
    · rename_i hi
      split at hv
      · simp only [Option.some.injEq] at hv
        exact hv ▸ hP _ _ _ hi (hP _ _ _ (by omega) (hP _ _ _ (by omega) hm))
      · cases hv
    · simp only [Option.some.injEq] at hv; exact hv ▸ hm
  | flood24 v => exact walk_invariant (fill _) hm h

/-- A transform completes when `[off, len)` is written. -/
theorem IsTransform.completes {T : Nat → Nat → Memory → Option Memory} (hT : IsTransform T) {off len : Nat}
    {m : Memory} (h : m.Written off len) : ∃ m', T off len m = some m' := by
  cases hT with
  | filter4 ch => exact scan_modify_completes _ h
  | darken4 ch => exact scan_modify_completes _ h
  | filter24 ch _ => exact scan_fill_completes _ (by omega) _ _ _
  | darken24 ch _ => exact darkenWalk24_completes _ _ _ _
  | gray24 => exact grayWalk24_completes (fun t ht a h1 h2 => h a (by omega) (by omega))
  | flood24 v => exact scan_fill_completes _ (by omega) _ _ _

/-- The result of a transform depends on the bytes alone, not on how they are listed: memories that read alike give
results that read alike. -/
theorem IsTransform.read_congr {T : Nat → Nat → Memory → Option Memory} (hT : IsTransform T) {off len : Nat}
    {m n m' n' : Memory} (hmn : ∀ a, m.read a = n.read a) (hm : T off len m = some m') (hn : T off len n = some n')
    (a : Nat) : m'.read a = n'.read a := by
  cases hT with
  | filter4 ch => rw [scan_modify_read hm, scan_modify_read hn, hmn a]
  | darken4 ch => rw [scan_modify_read hm, scan_modify_read hn, hmn a]
  | filter24 ch hch => rw [filterWalk24_read hch hm, filterWalk24_read hch hn, hmn a]
  | darken24 ch hch => rw [darkenWalk24_read hch hm, darkenWalk24_read hch hn, hmn a]
  | gray24 => rw [grayWalk24_read hm, grayWalk24_read hn, funext hmn]
  | flood24 v => rw [floodWalk24_read hm, floodWalk24_read hn, hmn a]

end Sys2Proof.Machine
end

