-- ==== Sys2Proof/Laws/Exec.lean ====
section
/-! SUPPORT. What a command can do, said once: the operand checks as arithmetic, the checks before a transform, and the
three ways `exec` answers a next state. -/

namespace Sys2Proof.Machine

/-! ### Operand checks (41_unpack_dispatch R125 to R128) -/

theorem channelValid_depth4 (ch : Nat) : channelValid 4 ch = decide (ch < 4) := by
  unfold channelValid Channel.ofIndex channelSet
  by_cases h0 : ch = 0
  · subst h0; rfl
  by_cases h1 : ch = 1
  · subst h1; rfl
  by_cases h2 : ch = 2
  · subst h2; rfl
  by_cases h3 : ch = 3
  · subst h3; rfl
  simp only [if_neg h0, if_neg h1, if_neg h2, if_neg h3]
  exact (decide_eq_false (by omega)).symm

theorem channelValid_depth24 (ch : Nat) : channelValid 24 ch = decide (ch < 3) := by
  unfold channelValid Channel.ofIndex channelSet
  by_cases h0 : ch = 0
  · subst h0; rfl
  by_cases h1 : ch = 1
  · subst h1; rfl
  by_cases h2 : ch = 2
  · subst h2; rfl
  by_cases h3 : ch = 3
  · subst h3; rfl
  simp only [if_neg h0, if_neg h1, if_neg h2, if_neg h3]
  exact (decide_eq_false (by omega)).symm

/-- The operand checks at depth 4: the channel first, then the operation. -/
theorem operandCondition_depth4 (op : Operation) (ch : Nat) :
    operandCondition 4 op ch =
      if ch < 4 then (if op = .filter ∨ op = .darken then none else some .unsupportedOperation)
      else some .invalidChannel := by
  unfold operandCondition
  rw [if_neg (by omega), channelValid_depth4]
  by_cases h : ch < 4
  · rw [if_neg (by simp [h]), if_pos h]
    cases op <;> rfl
  · rw [if_pos (by simp [h]), if_neg h]

/-- The operand checks at depth 24: the channel only. -/
theorem operandCondition_depth24 (op : Operation) (ch : Nat) :
    operandCondition 24 op ch = if ch < 3 then none else some .invalidChannel := by
  unfold operandCondition
  rw [if_neg (by omega), channelValid_depth24]
  by_cases h : ch < 3
  · rw [if_neg (by simp [h]), if_pos h]
    cases op <;> rfl
  · rw [if_pos (by simp [h]), if_neg h]

/-- The operand checks at any other depth. -/
theorem operandCondition_other {depth : Nat} (h4 : depth ≠ 4) (h24 : depth ≠ 24) (op : Operation) (ch : Nat) :
    operandCondition depth op ch = some .unsupportedDepth := by
  unfold operandCondition
  rw [if_pos ⟨h4, h24⟩]

theorem operandCondition_ne_ok {depth : Nat} {op : Operation} {ch : Nat} {c : Code}
    (h : operandCondition depth op ch = some c) : c ≠ .ok := by
  unfold operandCondition at h
  split at h
  · cases h; decide
  · split at h
    · cases h; decide
    · split at h
      · cases h; decide
      · cases h

/-! ### Every APPLY command is one shape -/

/-- The operation of an APPLY command (`filter` for INSPECT, which has none). -/
def operationOf : Instr → Operation
  | .inspect _ _ => .filter
  | .filter4 _ => .filter
  | .darken4 _ => .darken
  | .gray4 _ => .gray
  | .white4 _ => .white
  | .black4 _ => .black
  | .filter8 _ => .filter
  | .darken8 _ => .darken
  | .gray8 _ => .gray
  | .white8 _ => .white
  | .black8 _ => .black
  | .filter16 _ => .filter
  | .darken16 _ => .darken
  | .gray16 _ => .gray
  | .white16 _ => .white
  | .black16 _ => .black
  | .filter24 _ => .filter
  | .darken24 _ => .darken
  | .gray24 _ => .gray
  | .white24 _ => .white
  | .black24 _ => .black
  | .filter32 _ => .filter
  | .darken32 _ => .darken
  | .gray32 _ => .gray
  | .white32 _ => .white
  | .black32 _ => .black

/-- The transform of an APPLY command; the buffer as it is where the row offers none. -/
def transformOf : Instr → Nat → Nat → Memory → Option Memory
  | .filter4 ch => filterWalk4 ch
  | .darken4 ch => darkenWalk4 ch
  | .filter24 ch => filterWalk24 ch
  | .darken24 ch => darkenWalk24 ch
  | .gray24 _ => grayWalk24
  | .white24 _ => floodWalk24 0xFF#8
  | .black24 _ => floodWalk24 0x00#8
  | _ => fun _ _ m => some m

/-- An operand condition decides the command, whatever the transform. -/
theorem applyUnoffered_eq {depth : Nat} {op : Operation} {ch : Nat} (T : Nat → Nat → Memory → Option Memory)
    (h : operandCondition depth op ch ≠ none) (s : State) :
    applyUnoffered depth op ch s = applyCommand depth op ch T s := by
  unfold applyUnoffered applyCommand
  split
  · rfl
  · contradiction

/-- Every command but INSPECT is an APPLY command of its row. -/
theorem exec_apply {i : Instr} (h : ∀ ch depth, i ≠ .inspect ch depth) (s : State) :
    exec i s = applyCommand i.depth (operationOf i) i.ch (transformOf i) s := by
  have unoffered : ∀ depth op ch, operandCondition depth op ch ≠ none →
      applyUnoffered depth op ch s = applyCommand depth op ch (fun _ _ m => some m) s :=
    fun depth op ch hc => applyUnoffered_eq _ hc s
  have depth4 : ∀ op ch, op ≠ .filter → op ≠ .darken → operandCondition 4 op ch ≠ none := by
    intro op ch h1 h2
    rw [operandCondition_depth4]
    simp only [h1, h2, or_self, if_false]
    split <;> simp
  have other : ∀ depth op ch, depth ≠ 4 → depth ≠ 24 → operandCondition depth op ch ≠ none := by
    intro depth op ch h1 h2
    simp [operandCondition_other h1 h2]
  cases i with
  | inspect ch depth => exact absurd rfl (h ch depth)
  | filter4 ch => rfl
  | darken4 ch => rfl
  | gray4 ch => exact unoffered 4 .gray ch (depth4 _ _ (by decide) (by decide))
  | white4 ch => exact unoffered 4 .white ch (depth4 _ _ (by decide) (by decide))
  | black4 ch => exact unoffered 4 .black ch (depth4 _ _ (by decide) (by decide))
  | filter8 ch => exact unoffered 8 .filter ch (other _ _ _ (by decide) (by decide))
  | darken8 ch => exact unoffered 8 .darken ch (other _ _ _ (by decide) (by decide))
  | gray8 ch => exact unoffered 8 .gray ch (other _ _ _ (by decide) (by decide))
  | white8 ch => exact unoffered 8 .white ch (other _ _ _ (by decide) (by decide))
  | black8 ch => exact unoffered 8 .black ch (other _ _ _ (by decide) (by decide))
  | filter16 ch => exact unoffered 16 .filter ch (other _ _ _ (by decide) (by decide))
  | darken16 ch => exact unoffered 16 .darken ch (other _ _ _ (by decide) (by decide))
  | gray16 ch => exact unoffered 16 .gray ch (other _ _ _ (by decide) (by decide))
  | white16 ch => exact unoffered 16 .white ch (other _ _ _ (by decide) (by decide))
  | black16 ch => exact unoffered 16 .black ch (other _ _ _ (by decide) (by decide))
  | filter32 ch => exact unoffered 32 .filter ch (other _ _ _ (by decide) (by decide))
  | darken32 ch => exact unoffered 32 .darken ch (other _ _ _ (by decide) (by decide))
  | gray32 ch => exact unoffered 32 .gray ch (other _ _ _ (by decide) (by decide))
  | white32 ch => exact unoffered 32 .white ch (other _ _ _ (by decide) (by decide))
  | black32 ch => exact unoffered 32 .black ch (other _ _ _ (by decide) (by decide))
  | filter24 ch => rfl
  | darken24 ch => rfl
  | gray24 ch => rfl
  | white24 ch => rfl
  | black24 ch => rfl

/-- A row whose operands pass the checks has one of the seven transforms. -/
theorem transformOf_isTransform {i : Instr} (hi : ∀ ch depth, i ≠ .inspect ch depth)
    (h : operandCondition i.depth (operationOf i) i.ch = none) : IsTransform (transformOf i) := by
  have channel24 : ∀ op ch, operandCondition 24 op ch = none → ch < 3 := by
    intro op ch hc
    rw [operandCondition_depth24] at hc
    by_contra hlt
    rw [if_neg hlt] at hc
    cases hc
  have depth4 : ∀ op ch, operandCondition 4 op ch = none → op = .filter ∨ op = .darken := by
    intro op ch hc
    rw [operandCondition_depth4] at hc
    by_contra hop
    rw [if_neg hop] at hc
    split at hc <;> cases hc
  have other : ∀ depth op ch, depth ≠ 4 → depth ≠ 24 → operandCondition depth op ch = none → False := by
    intro depth op ch h1 h2 hc
    rw [operandCondition_other h1 h2] at hc
    cases hc
  cases i with
  | inspect ch depth => exact absurd rfl (hi ch depth)
  | filter4 ch => exact .filter4 ch
  | darken4 ch => exact .darken4 ch
  | filter24 ch => exact .filter24 ch (channel24 _ _ h)
  | darken24 ch => exact .darken24 ch (channel24 _ _ h)
  | gray24 ch => exact .gray24
  | white24 ch => exact .flood24 _
  | black24 ch => exact .flood24 _
  | gray4 ch => rcases depth4 _ _ h with h | h <;> cases h
  | white4 ch => rcases depth4 _ _ h with h | h <;> cases h
  | black4 ch => rcases depth4 _ _ h with h | h <;> cases h
  | filter8 ch => exact (other 8 _ _ (by decide) (by decide) h).elim
  | darken8 ch => exact (other 8 _ _ (by decide) (by decide) h).elim
  | gray8 ch => exact (other 8 _ _ (by decide) (by decide) h).elim
  | white8 ch => exact (other 8 _ _ (by decide) (by decide) h).elim
  | black8 ch => exact (other 8 _ _ (by decide) (by decide) h).elim
  | filter16 ch => exact (other 16 _ _ (by decide) (by decide) h).elim
  | darken16 ch => exact (other 16 _ _ (by decide) (by decide) h).elim
  | gray16 ch => exact (other 16 _ _ (by decide) (by decide) h).elim
  | white16 ch => exact (other 16 _ _ (by decide) (by decide) h).elim
  | black16 ch => exact (other 16 _ _ (by decide) (by decide) h).elim
  | filter32 ch => exact (other 32 _ _ (by decide) (by decide) h).elim
  | darken32 ch => exact (other 32 _ _ (by decide) (by decide) h).elim
  | gray32 ch => exact (other 32 _ _ (by decide) (by decide) h).elim
  | white32 ch => exact (other 32 _ _ (by decide) (by decide) h).elim
  | black32 ch => exact (other 32 _ _ (by decide) (by decide) h).elim

/-- An instruction with the OP code of an operation is an APPLY command of that operation. -/
theorem operationOf_of_opCode {i : Instr} {op : Operation} (h : i.opCode = op.code) :
    (∀ ch depth, i ≠ .inspect ch depth) ∧ operationOf i = op := by
  cases i <;> cases op <;> simp_all [Instr.opCode, inspectCode, Operation.code, operationOf]

/-! ### The checks before a command reads the buffer -/

/-- `withinCapacity` with a buffer that fits. -/
theorem withinCapacity_ready {s : State} (h : s.len.toNat ≤ s.cap.toNat) (body : Host.Outcome State Fault Refusal) :
    withinCapacity s body = body :=
  if_neg (by omega)

/-- `withinCapacity` with a buffer that does not fit. -/
theorem withinCapacity_refused {s : State} (h : s.cap.toNat < s.len.toNat)
    (body : Host.Outcome State Fault Refusal) : withinCapacity s body = .refused .lenBeyondCapacity :=
  if_pos h

/-- The one way `withinCapacity` answers a next state. -/
theorem withinCapacity_next {s t : State} {body : Host.Outcome State Fault Refusal}
    (h : withinCapacity s body = .next t) : s.len.toNat ≤ s.cap.toNat ∧ body = .next t := by
  unfold withinCapacity at h
  split at h
  · cases h
  · exact ⟨by omega, h⟩

/-- `withLength` with a header that is too short. -/
theorem withLength_short {s : State} (h : s.len.toNat < hdrMin) (body : Host.Outcome State Fault Refusal) :
    withLength s body = .next (s.endCommand .truncatedHeader) :=
  if_pos h

/-- `withLength` with a header and a buffer that fits. -/
theorem withLength_ready {s : State} (h1 : hdrMin ≤ s.len.toNat) (h2 : s.len.toNat ≤ s.cap.toNat)
    (body : Host.Outcome State Fault Refusal) : withLength s body = body :=
  (if_neg (by omega)).trans (withinCapacity_ready h2 body)

/-- The two ways `withLength` answers a next state. -/
theorem withLength_next {s t : State} {body : Host.Outcome State Fault Refusal} (h : withLength s body = .next t) :
    (s.len.toNat < hdrMin ∧ t = s.endCommand .truncatedHeader) ∨
      (hdrMin ≤ s.len.toNat ∧ s.len.toNat ≤ s.cap.toNat ∧ body = .next t) := by
  unfold withLength at h
  split at h
  · rename_i hlen
    exact .inl ⟨hlen, (Host.Outcome.next.inj h).symm⟩
  · exact .inr ⟨by omega, withinCapacity_next h⟩

/-! ### APPLY -/

/-- An APPLY command with an operand condition raises it. -/
theorem applyCommand_condition {depth : Nat} {op : Operation} {ch : Nat} {T : Nat → Nat → Memory → Option Memory}
    {c : Code} (h : operandCondition depth op ch = some c) (s : State) :
    applyCommand depth op ch T s = .next (s.endCommand c) := by
  unfold applyCommand
  rw [h]
  rfl

/-- An APPLY command that reaches its transform. -/
theorem applyCommand_ready {depth : Nat} {op : Operation} {ch : Nat} {T : Nat → Nat → Memory → Option Memory}
    {s : State} {off : Nat} {buf : Memory} (hc : operandCondition depth op ch = none) (hs : s.OffsetReady off)
    (hT : T off s.len.toNat s.buf = some buf) :
    applyCommand depth op ch T s = .next (State.endCommand { s with buf := buf } .ok) := by
  obtain ⟨h1, h2, h3⟩ := hs
  unfold applyCommand applyTransform
  simp only [hc, withLength_ready h1 h2, h3, hT]
  rfl

/-- An APPLY command whose transform would read an unwritten byte. -/
theorem applyCommand_unwritten {depth : Nat} {op : Operation} {ch : Nat} {T : Nat → Nat → Memory → Option Memory}
    {s : State} {off : Nat} (hc : operandCondition depth op ch = none) (hs : s.OffsetReady off)
    (hT : T off s.len.toNat s.buf = none) : applyCommand depth op ch T s = .refused .unwrittenByte := by
  obtain ⟨h1, h2, h3⟩ := hs
  unfold applyCommand applyTransform
  simp only [hc, withLength_ready h1 h2, h3, hT]

/-- An APPLY command whose offset field is not written. -/
theorem applyCommand_noOffset {depth : Nat} {op : Operation} {ch : Nat} {T : Nat → Nat → Memory → Option Memory}
    {s : State} (hc : operandCondition depth op ch = none) (h1 : hdrMin ≤ s.len.toNat)
    (h2 : s.len.toNat ≤ s.cap.toNat) (h3 : readOffset s.buf = none) :
    applyCommand depth op ch T s = .refused .unwrittenByte := by
  unfold applyCommand applyTransform
  simp only [hc, withLength_ready h1 h2, h3]

/-- An APPLY command on a buffer shorter than the header. -/
theorem applyCommand_short {depth : Nat} {op : Operation} {ch : Nat} {T : Nat → Nat → Memory → Option Memory}
    {s : State} (hc : operandCondition depth op ch = none) (h : s.len.toNat < hdrMin) :
    applyCommand depth op ch T s = .next (s.endCommand .truncatedHeader) := by
  unfold applyCommand applyTransform
  simp only [hc, withLength_short h]

/-- The three ways an APPLY command answers a next state. -/
theorem applyCommand_next {depth : Nat} {op : Operation} {ch : Nat} {T : Nat → Nat → Memory → Option Memory}
    {s t : State} (h : applyCommand depth op ch T s = .next t) :
    (∃ c, operandCondition depth op ch = some c ∧ t = s.endCommand c) ∨
      (operandCondition depth op ch = none ∧ s.len.toNat < hdrMin ∧ t = s.endCommand .truncatedHeader) ∨
      (operandCondition depth op ch = none ∧ ∃ off buf, s.OffsetReady off ∧ T off s.len.toNat s.buf = some buf ∧
        t = State.endCommand { s with buf := buf } .ok) := by
  unfold applyCommand at h
  split at h
  · rename_i c hc
    exact .inl ⟨c, hc, (Host.Outcome.next.inj h).symm⟩
  · rename_i hc
    rcases withLength_next h with ⟨hlen, ht⟩ | ⟨h1, h2, hbody⟩
    · exact .inr (.inl ⟨hc, hlen, ht⟩)
    · split at hbody
      · cases hbody
      · rename_i off hoff
        split at hbody
        · cases hbody
        · rename_i buf hbuf
          exact .inr (.inr ⟨hc, off, buf, ⟨h1, h2, hoff⟩, hbuf, (Host.Outcome.next.inj hbody).symm⟩)

/-! ### INSPECT -/

/-- The two ways INSPECT answers a next state. -/
theorem execInspect_next {ch depth : Nat} {s t : State} (h : execInspect ch depth s = .next t) :
    (s.len.toNat < hdrMin ∧ t = s.endCommand .truncatedHeader) ∨
      (hdrMin ≤ s.len.toNat ∧ s.len.toNat ≤ s.cap.toNat ∧
        ∃ hd, readHeader s.buf = some hd ∧ t = (s.loadHeader hd).endCommand .ok) := by
  rcases withLength_next h with h | ⟨h1, h2, hbody⟩
  · exact .inl h
  · split at hbody
    · cases hbody
    · rename_i hd hhd
      exact .inr ⟨h1, h2, hd, hhd, (Host.Outcome.next.inj hbody).symm⟩

theorem execInspect_ready {s : State} {hd : Header} (h1 : hdrMin ≤ s.len.toNat) (h2 : s.len.toNat ≤ s.cap.toNat)
    (h3 : readHeader s.buf = some hd) (ch depth : Nat) :
    execInspect ch depth s = .next ((s.loadHeader hd).endCommand .ok) := by
  unfold execInspect
  rw [withLength_ready h1 h2, h3]
  rfl

/-! ### Every command -/

/-- The three ways a command answers a next state: a condition that changes nothing but how the command ends, the
header loaded by INSPECT, or a transform of the buffer. -/
theorem exec_next {i : Instr} {s t : State} (h : exec i s = .next t) :
    (∃ c, c ≠ .ok ∧ t = s.endCommand c) ∨
      (∃ ch depth hd, i = .inspect ch depth ∧ hdrMin ≤ s.len.toNat ∧ s.len.toNat ≤ s.cap.toNat ∧
        readHeader s.buf = some hd ∧ t = (s.loadHeader hd).endCommand .ok) ∨
      ((∀ ch depth, i ≠ .inspect ch depth) ∧ IsTransform (transformOf i) ∧ ∃ off buf, s.OffsetReady off ∧
        transformOf i off s.len.toNat s.buf = some buf ∧ t = State.endCommand { s with buf := buf } .ok) := by
  by_cases hi : ∃ ch depth, i = .inspect ch depth
  · obtain ⟨ch, depth, rfl⟩ := hi
    rcases execInspect_next (ch := ch) (depth := depth) h with ⟨_, ht⟩ | ⟨h1, h2, hd, hhd, ht⟩
    · exact .inl ⟨.truncatedHeader, by decide, ht⟩
    · exact .inr (.inl ⟨ch, depth, hd, rfl, h1, h2, hhd, ht⟩)
  · have hne : ∀ ch depth, i ≠ .inspect ch depth := fun ch depth heq => hi ⟨ch, depth, heq⟩
    rw [exec_apply hne] at h
    rcases applyCommand_next h with ⟨c, hc, ht⟩ | ⟨_, _, ht⟩ | ⟨hc, off, buf, hoff, hbuf, ht⟩
    · exact .inl ⟨c, operandCondition_ne_ok hc, ht⟩
    · exact .inl ⟨.truncatedHeader, by decide, ht⟩
    · exact .inr (.inr ⟨hne, transformOf_isTransform hne hc, off, buf, hoff, hbuf, ht⟩)

end Sys2Proof.Machine
end

