-- ==== Sys2Proof/Laws/PerInstr.lean ====
section
/-! SUPPORT. The family WordFields: the fields of a well-formed instruction's word are its own (30_encoding R80, R86). -/

namespace Sys2Proof.Laws.WordFields

/-- The word of a well-formed instruction holds its OP code, its channel and its depth, and RSV = 0. -/
def Statement (i : Instr) : Prop :=
  i.wf = true → opField (encode i) = i.opCode ∧ chField (encode i) = i.ch ∧ rsvField (encode i) = 0 ∧
    depthField (encode i) = i.depth

/-- The word is `formatC` of the instruction's fields, whatever the instruction. -/
theorem of_formatC (i : Instr) : Statement i := by
  intro h
  obtain ⟨hc, hd⟩ := (Instr.wf_iff i).1 h
  have ho := i.opCode_lt
  exact ⟨opField_formatC hd hc ho, chField_formatC hd hc ho, rsvField_formatC hd hc ho, depthField_formatC hd hc ho⟩

theorem inspect (ch depth : Nat) : Statement (.inspect ch depth) := of_formatC _

theorem filter4 (ch : Nat) : Statement (.filter4 ch) := of_formatC _

theorem darken4 (ch : Nat) : Statement (.darken4 ch) := of_formatC _

theorem gray4 (ch : Nat) : Statement (.gray4 ch) := of_formatC _

theorem white4 (ch : Nat) : Statement (.white4 ch) := of_formatC _

theorem black4 (ch : Nat) : Statement (.black4 ch) := of_formatC _

theorem filter8 (ch : Nat) : Statement (.filter8 ch) := of_formatC _

theorem darken8 (ch : Nat) : Statement (.darken8 ch) := of_formatC _

theorem gray8 (ch : Nat) : Statement (.gray8 ch) := of_formatC _

theorem white8 (ch : Nat) : Statement (.white8 ch) := of_formatC _

theorem black8 (ch : Nat) : Statement (.black8 ch) := of_formatC _

theorem filter16 (ch : Nat) : Statement (.filter16 ch) := of_formatC _

theorem darken16 (ch : Nat) : Statement (.darken16 ch) := of_formatC _

theorem gray16 (ch : Nat) : Statement (.gray16 ch) := of_formatC _

theorem white16 (ch : Nat) : Statement (.white16 ch) := of_formatC _

theorem black16 (ch : Nat) : Statement (.black16 ch) := of_formatC _

theorem filter24 (ch : Nat) : Statement (.filter24 ch) := of_formatC _

theorem darken24 (ch : Nat) : Statement (.darken24 ch) := of_formatC _

theorem gray24 (ch : Nat) : Statement (.gray24 ch) := of_formatC _

theorem white24 (ch : Nat) : Statement (.white24 ch) := of_formatC _

theorem black24 (ch : Nat) : Statement (.black24 ch) := of_formatC _

theorem filter32 (ch : Nat) : Statement (.filter32 ch) := of_formatC _

theorem darken32 (ch : Nat) : Statement (.darken32 ch) := of_formatC _

theorem gray32 (ch : Nat) : Statement (.gray32 ch) := of_formatC _

theorem white32 (ch : Nat) : Statement (.white32 ch) := of_formatC _

theorem black32 (ch : Nat) : Statement (.black32 ch) := of_formatC _

end Sys2Proof.Laws.WordFields
end

