-- ==== Sys2Proof/Laws/Step.lean ====
section
/-! SUPPORT. What a step can do, said once: how a command in CMD runs, and the cases of one step. -/

namespace Sys2Proof.Machine

theorem runCommand_of_ok {s : State} {i : Instr} (hlen : s.len.toNat ≤ s.cap.toNat) (h : decode s.cmd = .ok i) :
    runCommand s = exec i s := by
  unfold runCommand
  rw [h]
  exact withinCapacity_ready hlen _

/-- An illegal word raises its condition whatever LEN is. -/
theorem runCommand_of_illegal {s : State} (h : decode s.cmd = .error .illegalCommand) :
    runCommand s = .next (s.endCommand .illegalCommand) := by
  unfold runCommand
  rw [h]
  rfl

theorem runCommand_of_error {s : State} {reject : DecodeReject} (hlen : s.len.toNat ≤ s.cap.toNat)
    (h : decode s.cmd = .error reject) : runCommand s = .next (s.endCommand (conditionOfReject reject)) := by
  cases reject with
  | illegalCommand => exact runCommand_of_illegal h
  | unsupportedDepth =>
    unfold runCommand
    rw [h]
    exact withinCapacity_ready hlen _

/-- A word that is a command is refused when LEN is above CAP. -/
theorem runCommand_refused {s : State} (hlen : s.cap.toNat < s.len.toNat)
    (h : decode s.cmd ≠ .error .illegalCommand) : runCommand s = .refused .lenBeyondCapacity := by
  unfold runCommand
  split
  · contradiction
  · exact withinCapacity_refused hlen _
  · exact withinCapacity_refused hlen _

/-- How the word in CMD answers a next state. -/
theorem runCommand_next {s t : State} (h : runCommand s = .next t) :
    (s.len.toNat ≤ s.cap.toNat ∧ ∃ i, decode s.cmd = .ok i ∧ exec i s = .next t) ∨
      ∃ reject, decode s.cmd = .error reject ∧ t = s.endCommand (conditionOfReject reject) := by
  cases hd : decode s.cmd with
  | error reject =>
    refine .inr ⟨reject, rfl, ?_⟩
    by_cases hlen : s.len.toNat ≤ s.cap.toNat
    · rw [runCommand_of_error hlen hd] at h
      exact (Host.Outcome.next.inj h).symm
    · cases reject with
      | illegalCommand =>
        rw [runCommand_of_illegal hd] at h
        exact (Host.Outcome.next.inj h).symm
      | unsupportedDepth =>
        rw [runCommand_refused (by omega) (by simp [hd])] at h
        cases h
  | ok i =>
    unfold runCommand at h
    rw [hd] at h
    obtain ⟨hlen, he⟩ := withinCapacity_next h
    exact .inl ⟨hlen, i, rfl, he⟩

/-- A step of a busy block. -/
theorem step_busy {s : State} (h : s.status.busy = true) : step s = runCommand (s.take s.host) := by
  simp [step, advance, h]

/-- A step of an idle block without a host access. -/
theorem step_idle {s : State} (h : s.status.busy = false) (hh : s.host = []) : step s = .next (s.take []) := by
  simp [step, advance, h, hh]

/-- A step of an idle block with a host access. -/
theorem step_host {s : State} {move : HostMove} {rest : List HostMove} (h : s.status.busy = false)
    (hh : s.host = move :: rest) : step s = hostAccess move (s.take rest) := by
  simp [step, advance, h, hh]

/-- A write of CMD runs the command. -/
theorem hostAccess_cmd (s : State) (w : Word) :
    hostAccess (.regWrite cmdOffset .word w) s = runCommand (s.acceptCommand w) := rfl

/-- The ways a host access answers a next state. -/
theorem hostAccess_next {move : HostMove} {s t : State} (h : hostAccess move s = .next t) :
    (∃ w, move = .regWrite cmdOffset .word w ∧ runCommand (s.acceptCommand w) = .next t) ∨
      (∃ w, move = .regWrite lenOffset .word w ∧ t = { s with len := w }) ∨
      (∃ offset w, move = .regWrite offset .word w ∧ offset ≠ cmdOffset ∧ offset ≠ lenOffset ∧ t = s) ∨
      (∃ offset, move = .regRead offset .word ∧ t = s.answer (.register (s.readRegister offset))) ∨
      (∃ a v, move = .bufWrite a v ∧ a < s.cap.toNat ∧ t = { s with buf := s.buf.write a v }) ∨
      (∃ a b, move = .bufRead a ∧ a < s.cap.toNat ∧ s.buf.read a = some b ∧ t = s.answer (.byte b)) ∨
      (move = .reset ∧ t = s.afterReset) := by
  have shape : ∀ offset size, accessDefined offset size = true → size = .word := by
    intro offset size h
    simp only [accessDefined, Bool.and_eq_true, beq_iff_eq] at h
    exact h.1
  cases move with
  | regWrite offset size w =>
    simp only [hostAccess] at h
    split at h
    · rename_i hd
      have := shape _ _ hd
      subst this
      unfold writeRegister at h
      split at h
      · rename_i ho; subst ho; exact .inl ⟨w, rfl, h⟩
      · rename_i hc
        split at h
        · rename_i ho; subst ho; exact .inr (.inl ⟨w, rfl, (Host.Outcome.next.inj h).symm⟩)
        · rename_i hl
          exact .inr (.inr (.inl ⟨offset, w, rfl, hc, hl, (Host.Outcome.next.inj h).symm⟩))
    · cases h
  | regRead offset size =>
    simp only [hostAccess] at h
    split at h
    · rename_i hd
      have := shape _ _ hd
      subst this
      exact .inr (.inr (.inr (.inl ⟨offset, rfl, (Host.Outcome.next.inj h).symm⟩)))
    · cases h
  | bufWrite a v =>
    simp only [hostAccess] at h
    split at h
    · rename_i ha
      exact .inr (.inr (.inr (.inr (.inl ⟨a, v, rfl, ha, (Host.Outcome.next.inj h).symm⟩))))
    · cases h
  | bufRead a =>
    simp only [hostAccess] at h
    split at h
    · rename_i ha
      split at h
      · rename_i b hb
        exact .inr (.inr (.inr (.inr (.inr (.inl ⟨a, b, rfl, ha, hb, (Host.Outcome.next.inj h).symm⟩)))))
      · cases h
    · cases h
  | reset => exact .inr (.inr (.inr (.inr (.inr (.inr ⟨rfl, (Host.Outcome.next.inj h).symm⟩)))))

/-- The ways a step answers a next state. -/
theorem step_next {s t : State} (h : step s = .next t) :
    (s.status.busy = true ∧ runCommand (s.take s.host) = .next t) ∨
      (s.status.busy = false ∧ s.host = [] ∧ t = s.take []) ∨
      (s.status.busy = false ∧ ∃ move rest, s.host = move :: rest ∧ hostAccess move (s.take rest) = .next t) := by
  rcases hb : s.status.busy with _ | _
  · rcases hh : s.host with _ | ⟨move, rest⟩
    · rw [step_idle hb hh] at h
      exact .inr (.inl ⟨rfl, rfl, (Host.Outcome.next.inj h).symm⟩)
    · rw [step_host hb hh] at h
      exact .inr (.inr ⟨rfl, move, rest, rfl, h⟩)
  · rw [step_busy hb] at h
    exact .inl ⟨rfl, h⟩

end Sys2Proof.Machine
end

