-- ==== Sys2Proof/Tests/Slice0.lean ====
section
/-! SUPPORT. Tests by hand: the smoke test of WellFormed, one word written out per constructor, one-step vectors of
spec/95_test_vectors.md, and for every obligation with hypotheses a concrete case that meets them all. -/

namespace Sys2Proof.Tests

open Sys2Proof Sys2Proof.Machine

/-! ### Small states -/

/-- Four bytes, least significant first. -/
def le4 (v : Nat) : List Byte :=
  [BitVec.ofNat 8 v, BitVec.ofNat 8 (v / 256), BitVec.ofNat 8 (v / 65536), BitVec.ofNat 8 (v / 16777216)]

/-- The standard header HDR(L, off, w, h, bpp) of spec/95_test_vectors.md. -/
def hdr (l off w h bpp : Nat) : List Byte :=
  [0x42#8, 0x4D#8] ++ le4 l ++ [0, 0, 0, 0] ++ le4 off ++ [0, 0, 0, 0] ++ le4 w ++ le4 h ++ [0, 0]
    ++ [BitVec.ofNat 8 bpp, BitVec.ofNat 8 (bpp / 256)] ++ List.replicate 24 0

/-- Bytes at rising addresses. -/
def place : Nat → List Byte → Memory
  | _, [] => []
  | a, b :: rest => (a, b) :: place (a + 1) rest

/-- After reset, with the bytes loaded from address 0 and LEN their number. -/
def loaded (bytes : List Byte) : State :=
  { State.resetFor 0x1000#32 with len := BitVec.ofNat 32 bytes.length, buf := place 0 bytes }

/-- The code and the buffer after one step at which the host writes the word to CMD. -/
def run (w : Word) (bytes : List Byte) : Option (Code × List Byte) :=
  match step ((loaded bytes).offerCommand w) with
  | .next t => some (t.status.code, t.buf.map Prod.snd)
  | _ => none

/-- The code and the five header registers after one step, from registers that hold 1, 2, 3, 4, 5. -/
def inspectRun (w : Word) (bytes : List Byte) : Option (Code × List Word) :=
  match step { (loaded bytes).offerCommand w with hSize := 1, hOff := 2, hWidth := 3, hHeight := 4, hBpp := 5 } with
  | .next t => some (t.status.code, [t.hSize, t.hOff, t.hWidth, t.hHeight, t.hBpp])
  | _ => none

/-- Start buffer of F4-1 to F4-13. -/
def buf4 : List Byte := hdr 58 54 8 1 4
/-- Its pixel array. -/
def pix4 : List Byte := [0x00, 0xFF, 0xA7, 0x5C]
/-- Header of C24-1 and W24-1. -/
def buf24 : List Byte := hdr 61 54 2 1 24
/-- Its pixel array. -/
def pix24 : List Byte := [10, 20, 30, 40, 50, 60, 70]

/-! ### WellFormed -/

/-- CH does not fit its four bits, DEPTH not its sixteen; the largest values fit (30_encoding R80). -/
theorem test_wellFormed_refuses_each_ill_formed_term :
    (Instr.filter4 16).wf = false ∧ (Instr.inspect 16 0).wf = false ∧ (Instr.inspect 0 65536).wf = false ∧
      (Instr.black32 15).wf = true ∧ (Instr.inspect 15 65535).wf = true := by decide

/-! ### Decoding words written out from 30_encoding R80, R81, R86: DEPTH in [31:16], CH in [7:4], OP in [3:0] -/

theorem test_decode_inspect : decode 0x00000005#32 = .ok (.inspect 0 0) ∧
    decode 0xABCD00F5#32 = .ok (.inspect 15 0xABCD) := ⟨rfl, rfl⟩
theorem test_decode_depth4 :
    decode 0x00040000#32 = .ok (.filter4 0) ∧ decode 0x00040031#32 = .ok (.darken4 3) ∧
    decode 0x00040072#32 = .ok (.gray4 7) ∧ decode 0x00040003#32 = .ok (.white4 0) ∧
    decode 0x000400F4#32 = .ok (.black4 15) := ⟨rfl, rfl, rfl, rfl, rfl⟩
theorem test_decode_depth8 :
    decode 0x00080070#32 = .ok (.filter8 7) ∧ decode 0x00080011#32 = .ok (.darken8 1) ∧
    decode 0x00080022#32 = .ok (.gray8 2) ∧ decode 0x00080003#32 = .ok (.white8 0) ∧
    decode 0x00080044#32 = .ok (.black8 4) := ⟨rfl, rfl, rfl, rfl, rfl⟩
theorem test_decode_depth16 :
    decode 0x00100010#32 = .ok (.filter16 1) ∧ decode 0x00100001#32 = .ok (.darken16 0) ∧
    decode 0x00100002#32 = .ok (.gray16 0) ∧ decode 0x00100083#32 = .ok (.white16 8) ∧
    decode 0x00100014#32 = .ok (.black16 1) := ⟨rfl, rfl, rfl, rfl, rfl⟩
theorem test_decode_depth24 :
    decode 0x00180020#32 = .ok (.filter24 2) ∧ decode 0x00180091#32 = .ok (.darken24 9) ∧
    decode 0x00180022#32 = .ok (.gray24 2) ∧ decode 0x00180003#32 = .ok (.white24 0) ∧
    decode 0x00180004#32 = .ok (.black24 0) := ⟨rfl, rfl, rfl, rfl, rfl⟩
theorem test_decode_depth32 :
    decode 0x00200000#32 = .ok (.filter32 0) ∧ decode 0x00200021#32 = .ok (.darken32 2) ∧
    decode 0x00200012#32 = .ok (.gray32 1) ∧ decode 0x002000F3#32 = .ok (.white32 15) ∧
    decode 0x00200014#32 = .ok (.black32 1) := ⟨rfl, rfl, rfl, rfl, rfl⟩
/-- I5, U-9 to U-13. -/
theorem test_decode_rejects_illegal_words :
    decode 0x00000105#32 = .error .illegalCommand ∧ decode 0x00000006#32 = .error .illegalCommand ∧
    decode 0x0018000F#32 = .error .illegalCommand ∧ decode 0x00188000#32 = .error .illegalCommand ∧
    decode 0x00080009#32 = .error .illegalCommand ∧ decode 0x00180100#32 = .error .illegalCommand :=
  ⟨rfl, rfl, rfl, rfl, rfl, rfl⟩
/-- U-4 to U-7. -/
theorem test_decode_rejects_unnamed_depths :
    decode 0x00000000#32 = .error .unsupportedDepth ∧ decode 0x00010000#32 = .error .unsupportedDepth ∧
    decode 0x000C0003#32 = .error .unsupportedDepth ∧ decode 0xFFFF0021#32 = .error .unsupportedDepth :=
  ⟨rfl, rfl, rfl, rfl⟩
/-- The table word of GRAY.24, and no instruction where the decoder rejects. -/
theorem test_decodeTableWord :
    decodeTableWord 32 0x00180002 = some (.gray24 0) ∧ decodeTableWord 32 0x00180100 = none := ⟨rfl, rfl⟩

/-! ### One command each -/

/-- I1 and I4. -/
theorem test_inspect_loads :
    inspectRun 0x00000005#32 (hdr 60 54 2 1 24 ++ [10, 20, 30, 40, 50, 60]) = some (.ok, [60, 54, 2, 1, 24]) ∧
    inspectRun 0xABCD00F5#32 ([0, 0, 0xEF, 0xBE, 0xAD, 0xDE, 0, 0, 0, 0, 0x78, 0x56, 0x34, 0x12, 0, 0, 0, 0,
        0xFE, 0xFF, 0xFF, 0xFF, 0x01, 0, 0, 0x80, 0, 0, 0xFF, 0xFF] ++ List.replicate 24 0) =
      some (.ok, [0xDEADBEEF, 0x12345678, 0xFFFFFFFE, 0x80000001, 0xFFFF]) := by decide
/-- I2. -/
theorem test_inspect_truncated :
    inspectRun 0x00000005#32 (List.replicate 53 0) = some (.truncatedHeader, [1, 2, 3, 4, 5]) := by decide

/-- F4-1, F4-2. -/
theorem test_filter4 :
    run 0x00040000#32 (buf4 ++ pix4) = some (.ok, buf4 ++ [0x00, 0xF0, 0xA0, 0x50]) ∧
    run 0x00040010#32 (buf4 ++ pix4) = some (.ok, buf4 ++ [0x00, 0x0F, 0x07, 0x0C]) := by decide
/-- F4-3, F4-9. -/
theorem test_filter4_red_and_invalid :
    run 0x00040020#32 (buf4 ++ pix4) = some (.ok, buf4 ++ pix4) ∧
    run 0x00040040#32 (buf4 ++ pix4) = some (.invalidChannel, buf4 ++ pix4) := by decide
/-- F4-5, F4-6. -/
theorem test_darken4 :
    run 0x00040001#32 (buf4 ++ pix4) = some (.ok, buf4 ++ [0x0F, 0xFF, 0xAF, 0x5F]) ∧
    run 0x00040011#32 (buf4 ++ pix4) = some (.ok, buf4 ++ [0xF0, 0xFF, 0xF7, 0xFC]) := by decide
/-- F4-8, F4-14. -/
theorem test_darken4_gray_and_empty :
    run 0x00040031#32 (buf4 ++ pix4) = some (.ok, buf4 ++ pix4) ∧
    run 0x00040001#32 (hdr 54 54 0 0 4) = some (.ok, hdr 54 54 0 0 4) := by decide
/-- F4-10 to F4-13. -/
theorem test_gray4 :
    run 0x00040072#32 (buf4 ++ pix4) = some (.invalidChannel, buf4 ++ pix4) ∧
    run 0x00040002#32 (buf4 ++ pix4) = some (.unsupportedOperation, buf4 ++ pix4) := by decide
theorem test_white4 : run 0x00040003#32 (buf4 ++ pix4) = some (.unsupportedOperation, buf4 ++ pix4) := by decide
theorem test_black4 : run 0x00040004#32 (buf4 ++ pix4) = some (.unsupportedOperation, buf4 ++ pix4) := by decide

/-- C24-1, C24-2. -/
theorem test_filter24 :
    run 0x00180000#32 (buf24 ++ pix24) = some (.ok, buf24 ++ [0, 20, 30, 0, 50, 60, 0]) ∧
    run 0x00180010#32 (buf24 ++ pix24) = some (.ok, buf24 ++ [10, 0, 30, 40, 0, 60, 70]) := by decide
/-- C24-3, C24-9: the sum of the offset and the channel does not wrap. -/
theorem test_filter24_red_and_no_wrap :
    run 0x00180020#32 (buf24 ++ pix24) = some (.ok, buf24 ++ [10, 20, 0, 40, 50, 0, 70]) ∧
    run 0x00180020#32 (hdr 60 0xFFFFFFFF 1 1 24 ++ [1, 2, 3, 4, 5, 6]) =
      some (.ok, hdr 60 0xFFFFFFFF 1 1 24 ++ [1, 2, 3, 4, 5, 6]) := by decide
/-- C24-4, C24-5. -/
theorem test_darken24 :
    run 0x00180001#32 (buf24 ++ pix24) = some (.ok, buf24 ++ [10, 0, 0, 40, 0, 0, 70]) ∧
    run 0x00180011#32 (buf24 ++ pix24) = some (.ok, buf24 ++ [10, 20, 0, 0, 50, 0, 0]) := by decide
/-- C24-6, S8a. -/
theorem test_darken24_red :
    run 0x00180021#32 (buf24 ++ pix24) = some (.ok, buf24 ++ [10, 20, 30, 0, 0, 60, 0]) ∧
    run 0x00180021#32 (hdr 57 54 1 1 24 ++ [10, 20, 30]) = some (.ok, hdr 57 54 1 1 24 ++ [10, 20, 30]) := by decide
/-- W24-1, W24-2. -/
theorem test_gray24 :
    run 0x00180002#32 (buf24 ++ pix24) = some (.ok, buf24 ++ [20, 20, 20, 50, 50, 50, 70]) ∧
    run 0x00180022#32 (buf24 ++ pix24) = some (.ok, buf24 ++ [20, 20, 20, 50, 50, 50, 70]) := by decide
/-- GRAY.24 on one pixel: sums 764 and 2. -/
theorem test_gray24_extremes :
    run 0x00180002#32 (hdr 57 54 1 1 24 ++ [255, 255, 254]) = some (.ok, hdr 57 54 1 1 24 ++ [254, 254, 254]) ∧
    run 0x00180002#32 (hdr 57 54 1 1 24 ++ [1, 1, 0]) = some (.ok, hdr 57 54 1 1 24 ++ [0, 0, 0]) := by decide
/-- W24-3, W24-5. -/
theorem test_white24 :
    run 0x00180003#32 (buf24 ++ pix24) = some (.ok, buf24 ++ List.replicate 7 255) ∧
    run 0x00180032#32 (buf24 ++ pix24) = some (.invalidChannel, buf24 ++ pix24) := by decide
/-- W24-4. -/
theorem test_black24 :
    run 0x00180004#32 (buf24 ++ pix24) = some (.ok, buf24 ++ List.replicate 7 0) := by decide
/-- P5, step 1: the offset is read before the flood zeroes it. -/
theorem test_black24_over_the_offset :
    run 0x00180004#32 ([0x42, 0x4D, 0x3C, 0, 0, 0, 0, 0, 0, 0, 0x0A, 0, 0, 0] ++ List.replicate 46 0x3B) =
      some (.ok, [0x42, 0x4D, 0x3C, 0, 0, 0, 0, 0, 0, 0] ++ List.replicate 50 0) := by decide

/-- U-1, U-8: LEN = 0, and CH 7. -/
theorem test_filter8 :
    run 0x00080000#32 [] = some (.unsupportedDepth, []) ∧ run 0x00080070#32 [9] = some (.unsupportedDepth, [9]) := by
  decide
/-- U-2. -/
theorem test_gray16 : run 0x00100002#32 [] = some (.unsupportedDepth, []) := by decide
/-- U-3. -/
theorem test_black32 : run 0x00200014#32 (buf4 ++ pix4) = some (.unsupportedDepth, buf4 ++ pix4) := by decide
/-- The priority table of 95_test_vectors section 2.6 at LEN 53. -/
theorem test_priority_on_a_short_buffer :
    (run 0x00180004#32 (List.replicate 53 11)).map Prod.fst = some .truncatedHeader ∧
    (run 0x00040003#32 (List.replicate 53 11)).map Prod.fst = some .unsupportedOperation ∧
    (run 0x00180030#32 (List.replicate 53 11)).map Prod.fst = some .invalidChannel ∧
    (run 0x00180107#32 (List.replicate 53 11)).map Prod.fst = some .illegalCommand := by decide

/-! ### Witnesses: for each obligation with hypotheses, a case that meets them all -/

/-- C24-1's state. -/
def s24 : State := loaded (buf24 ++ pix24)
/-- F4-1's state. -/
def s4 : State := loaded (buf4 ++ pix4)
/-- LEN 53, one byte short of a header. -/
def s53 : State := loaded (List.replicate 53 11)
/-- LEN 61 in a memory of 60 bytes. -/
def sOver : State := { s24 with cap := 60#32 }
/-- LEN 61 with nothing written. -/
def sBlank : State := { s24 with buf := [] }
/-- LEN 61, written up to address 59. -/
def sHole : State := { s24 with buf := place 0 (buf24 ++ [10, 20, 30, 40, 50, 60]) }
/-- LEN 61, the offset field not wholly written. -/
def sHeaderHole : State := { s24 with buf := place 0 (buf24.take 13) }
/-- U-9, U-13 (any LEN): LEN above CAP does not keep an illegal word from raising IllegalCommand (30_encoding R88), nor
does it refuse anything but a command (R216). -/
theorem test_illegal_word_with_len_above_cap :
    (∀ w ∈ [(0x00000006#32 : Word), 0x00180100#32].map sOver.offerCommand,
      (match step w with | .next t => some (t.status.code, t.buf) | _ => none) = some (.illegalCommand, s24.buf)) ∧
      step (sOver.offerCommand 0x00080000#32) = .refused .lenBeyondCapacity := ⟨by decide, rfl⟩
/-- An idle state whose host does one access. -/
def doing (s : State) (move : HostMove) : State := { s with host := [move] }

/-- The outcome is a next state. -/
def isNext : Host.Outcome State Fault Refusal → Bool
  | .next _ => true
  | _ => false

theorem exists_next {o : Host.Outcome State Fault Refusal} (h : isNext o = true) : ∃ t, o = .next t := by
  cases o with
  | next t => exact ⟨t, rfl⟩
  | fault _ => cases h
  | refused _ => cases h

theorem witness_DecodeInvertsEncode : (Instr.inspect 15 65535).wf = true ∧ (Instr.black32 15).wf = true := by decide
theorem witness_EncodeInvertsDecode : decode 0xABCD00F5#32 = .ok (.inspect 15 0xABCD) := rfl
theorem witness_StepRunsTheCommandWrittenToCmd :
    (s24.offerCommand 0x00180010#32).Offers 0x00180010#32 [] ∧
      (s24.offerCommand 0x00180010#32).len.toNat ≤ (s24.offerCommand 0x00180010#32).cap.toNat ∧
      decode 0x00180010#32 = .ok (.filter24 1) := ⟨⟨rfl, rfl⟩, by decide, rfl⟩
/-- One witness for RSV, one for each end of the range of OP; LEN within CAP and above it. -/
theorem witness_IllegalWordRaisesIllegalCommand :
    (∀ w, (s24.offerCommand w).Offers w [] ∧ (sOver.offerCommand w).Offers w []) ∧
      s24.len.toNat ≤ s24.cap.toNat ∧ sOver.cap.toNat < sOver.len.toNat ∧ rsvField 0x00180100#32 ≠ 0 ∧
      6 ≤ opField 0x00000006#32 ∧ 6 ≤ opField 0x0018000F#32 :=
  ⟨fun _ => ⟨⟨rfl, rfl⟩, rfl, rfl⟩, by decide⟩
/-- Depths 3, 25 and 65535. -/
theorem witness_DepthNeitherFourNorTwentyFourRaisesUnsupportedDepth :
    (∀ w, (s24.offerCommand w).Offers w []) ∧ s24.len.toNat ≤ s24.cap.toNat ∧
      [0x00030000#32, 0x001900F4#32, 0xFFFF0004#32].all
        (fun w => decide (rsvField w = 0 ∧ opField w ≤ 4 ∧ depthField w ≠ 4 ∧ depthField w ≠ 24)) = true :=
  ⟨fun _ => ⟨rfl, rfl⟩, by decide⟩
theorem witness_UnnamedDepthMatchesNoRow :
    [0x00000000#32, 0x002100F4#32].all
      (fun w => decide (rsvField w = 0 ∧ opField w ≤ 4 ∧ depthField w ∉ [4, 8, 16, 24, 32])) = true := by decide
theorem witness_LenBeyondCapacityIsRefused :
    (sOver.offerCommand 5#32).Offers 5#32 [] ∧ (sOver.offerCommand 5#32).cap.toNat < (sOver.offerCommand 5#32).len.toNat ∧
      rsvField 5#32 = 0 ∧ opField 5#32 < 6 :=
  ⟨⟨rfl, rfl⟩, by decide⟩
theorem witness_IdleBlockWithoutAccessStaysAsItIs : s24.status.busy = false ∧ s24.host = [] := ⟨rfl, rfl⟩
theorem witness_BusyBlockEndsItsCommandBeforeAnyAccess :
    (s24.acceptCommand 0x00180002#32).status.busy = true ∧
      (s24.acceptCommand 0x00180002#32).len.toNat ≤ (s24.acceptCommand 0x00180002#32).cap.toNat ∧
      decode (s24.acceptCommand 0x00180002#32).cmd = .ok (.gray24 0) := ⟨rfl, by decide, rfl⟩
theorem witness_CmdHoldsTheWordWrittenAndLenIsKept :
    (∃ t, exec (.filter24 0) s24 = .next t) ∧
      (s24.offerCommand 0x00180000#32).Offers 0x00180000#32 [] ∧
      ∃ t, step (s24.offerCommand 0x00180000#32) = .next t := ⟨exists_next (by decide), ⟨rfl, rfl⟩, exists_next (by decide)⟩
/-- INSPECT at LEN 53 raises, FILTER.24 at LEN 61 completes normally, an illegal word raises with LEN above CAP. -/
theorem witness_ReportedCodeFollowsThePriority :
    (∀ (s : State) (w : Word), State.Offers (State.offerCommand { s with host := [] } w) w []) ∧
      s53.len.toNat ≤ s53.cap.toNat ∧ reportedCode 5#32 s53.len.toNat ≠ .ok ∧
      s24.len.toNat ≤ s24.cap.toNat ∧ reportedCode 0x00180000#32 s24.len.toNat = .ok ∧
      (sOver.cap.toNat < sOver.len.toNat ∧ 6 ≤ opField 6#32 ∧ reportedCode 6#32 sOver.len.toNat ≠ .ok) ∧
      ∃ t, step (s24.offerCommand 0x00180000#32) = .next t :=
  ⟨fun _ _ => ⟨rfl, rfl⟩, by decide, by decide, by decide, by decide, by decide, exists_next (by decide)⟩
theorem witness_RaisedConditionChangesNothingElse :
    (∃ t, exec (.filter24 3) s24 = .next t ∧ t.status.code ≠ .ok) ∧
      ∃ t, runCommand (s24.acceptCommand 0x00180100#32) = .next t ∧ t.status.code ≠ .ok :=
  ⟨⟨_, rfl, by decide⟩, _, rfl, by decide⟩
theorem witness_EveryStepEndsWithTheBlockIdle :
    (∃ t, step (s24.offerCommand 0x00180011#32) = .next t) ∧
      ∃ t, runCommand (s24.acceptCommand 0x00180011#32) = .next t := ⟨exists_next (by decide), exists_next (by decide)⟩
theorem witness_ShortBufferRaisesTruncatedHeader : s53.len.toNat < 54 ∧ 3 < 4 ∧ 2 < 3 := by decide
theorem witness_InvalidChannelIsRaisedWhateverTheOperation : 4 ≤ 4 ∧ 4 ≤ 15 ∧ 3 ≤ 3 ∧ 3 ≤ 15 := by decide
theorem witness_GrayWhiteBlackAtDepthFourRaiseUnsupportedOperation : 0 < 4 ∧ 3 < 4 := by decide
theorem witness_CommandsNeverFault :
    exec (.filter24 0) sOver = .refused .lenBeyondCapacity ∧ exec (.gray24 0) sBlank = .refused .unwrittenByte :=
  ⟨rfl, rfl⟩
theorem witness_InspectLoadsTheFiveHeaderFields :
    54 ≤ s24.len.toNat ∧ s24.len.toNat ≤ s24.cap.toNat ∧
      ∀ a ∈ [2, 3, 4, 5, 10, 11, 12, 13, 18, 19, 20, 21, 22, 23, 24, 25, 28, 29],
        s24.buf.read a = some ((s24.buf.read a).getD 0) := by decide
theorem witness_OnlySuccessfulInspectWritesHeaderRegisters :
    ∃ t, exec (.inspect 0 0) s24 = .next t ∧
      ¬(t.hSize = s24.hSize ∧ t.hOff = s24.hOff ∧ t.hWidth = s24.hWidth ∧ t.hHeight = s24.hHeight ∧ t.hBpp = s24.hBpp) :=
  ⟨_, rfl, by decide⟩
theorem witness_IgnoredFieldsDoNotMatter : (0 < 3 ∧ 2 < 3) ∧ 3 ≤ 3 := by decide
theorem witness_NibbleMaskOfEachChannel : 0 < 4 ∧ 3 < 4 := by decide
theorem witness_DepthFourClosedForm :
    3 < 4 ∧ s4.OffsetReady 54 ∧ s4.buf.Written 54 s4.len.toNat := by decide
theorem witness_FilterTwentyFourClosedForm : 2 < 3 ∧ s24.OffsetReady 54 := by decide
theorem witness_DarkenTwentyFourClosedForm : 0 < 3 ∧ s24.OffsetReady 54 := by decide
/-- And bytes that meet the inner hypotheses: the second pixel, and its last byte. -/
theorem witness_GrayTwentyFourClosedForm :
    2 < 3 ∧ s24.OffsetReady 54 ∧
      (∀ j, j < s24.len.toNat → 54 ≤ j → 54 + 3 * ((j - 54) / 3) + 2 < s24.len.toNat → (s24.buf.read j).isSome = true) ∧
      54 ≤ 59 ∧ 57 = 54 + 3 * ((59 - 54) / 3) ∧ 57 + 2 < s24.len.toNat ∧ s24.buf.read 57 = some 40 ∧
      s24.buf.read (57 + 1) = some 50 ∧ s24.buf.read (57 + 2) = some 60 ∧
      ¬(54 ≤ 60 ∧ 54 + 3 * ((60 - 54) / 3) + 2 < s24.len.toNat) := by decide
theorem witness_FloodTwentyFourClosedForm : 1 < 3 ∧ s24.OffsetReady 54 := by decide
/-- C24-14 (offset = LEN) for the first two clauses, C24-12 (offset + 1 = LEN) for the third. -/
theorem witness_OffsetBeyondTheEndIsANoOp :
    (loaded (hdr 60 60 1 1 24 ++ List.replicate 6 0)).OffsetReady 60 ∧
      (loaded (hdr 60 60 1 1 24 ++ List.replicate 6 0)).len.toNat ≤ 60 ∧ 3 < 4 ∧ 2 < 3 ∧
      (loaded (hdr 60 59 1 1 24 ++ [0, 0, 0, 0, 0, 9])).OffsetReady 59 ∧
      (loaded (hdr 60 59 1 1 24 ++ [0, 0, 0, 0, 0, 9])).len.toNat ≤ 59 + 1 ∧ 1 < 3 := by decide
/-- Byte 29 for INSPECT, byte 13 of the offset field, and byte 59, in the last whole pixel, or 60 of the array. -/
theorem witness_UnwrittenByteThatWouldBeReadIsRefused :
    (54 ≤ s24.len.toNat ∧ s24.len.toNat ≤ s24.cap.toNat) ∧ sBlank.buf.read 29 = none ∧
      sHeaderHole.buf.read 13 = none ∧ 10 ≤ 13 ∧ 13 < 14 ∧
      sHole.buf.read 60 = none ∧ readOffset sHole.buf = some 54 ∧ 54 ≤ 60 ∧ 60 < sHole.len.toNat ∧
      Memory.read (place 0 (buf24 ++ [10, 20, 30, 40, 50])) 59 = none ∧
      readOffset (place 0 (buf24 ++ [10, 20, 30, 40, 50])) = some 54 ∧ 54 + 3 * ((59 - 54) / 3) + 2 < s24.len.toNat := by
  decide
theorem witness_TransformsStayInsideThePixelArray :
    ∃ t, exec (.black24 0) s24 = .next t ∧ t.buf.read 54 ≠ s24.buf.read 54 := ⟨_, rfl, by decide⟩
/-- Two states that differ in STATUS and in a header register, a next state, and a refusal. -/
theorem witness_OutcomeDependsOnBufferLenAndCommandAlone :
    (s24.buf = { s24 with hSize := 7, status := ⟨.illegalCommand, false⟩ }.buf ∧
      s24 ≠ { s24 with hSize := 7, status := ⟨.illegalCommand, false⟩ }) ∧
      (∃ t, exec (.inspect 0 0) s24 = .next t ∧ t.status.code = .ok) ∧
      exec (.gray24 0) sBlank = .refused .unwrittenByte := ⟨by decide, ⟨_, rfl, by decide⟩, rfl⟩
theorem witness_GrayTwentyFourIsIdempotent :
    0 < 3 ∧ 2 < 3 ∧ s24.buf.wf = true ∧ s24.OffsetReady 54 ∧ 14 ≤ 54 ∧ s24.buf.Written 54 s24.len.toNat := by decide
theorem witness_OtherTransformsAreIdempotent :
    s24.buf.wf = true ∧ s24.OffsetReady 54 ∧ 14 ≤ 54 ∧ s24.buf.Written 54 s24.len.toNat ∧ 3 < 4 ∧ 2 < 3 := by decide
theorem witness_ThreeFiltersEqualOneBlack : s24.buf.wf = true ∧ s24.OffsetReady 54 ∧ 14 ≤ 54 := by decide
theorem witness_LaterDepthFourCommandWins :
    1 < 4 ∧ s4.buf.wf = true ∧ s4.OffsetReady 54 ∧ 14 ≤ 54 ∧ s4.buf.Written 54 s4.len.toNat := by decide
/-- Offset 10, and each offset that lies inside the field. -/
theorem witness_FloodOverTheOffsetFieldIsSeenByTheNextCommand :
    (0 < 3 ∧ 2 < 3) ∧ ((loaded (hdr 60 10 0 0 0 ++ List.replicate 6 1)).OffsetReady 10 ∧ 10 ≤ 13) ∧
      ((loaded (hdr 60 11 0 0 0 ++ List.replicate 6 1)).OffsetReady 11 ∧ 11 ≤ 13) ∧
      ((loaded (hdr 60 12 0 0 0 ++ List.replicate 6 1)).OffsetReady 12 ∧ 12 ≤ 13) ∧
      (loaded (hdr 60 13 0 0 0 ++ List.replicate 6 1)).OffsetReady 13 ∧ 13 ≤ 13 := by decide
theorem witness_ByteReadsWhatWasLastWritten : 54 ≠ 55 := by decide
theorem witness_WritesKeepTheCanonicalForm :
    s24.buf.wf = true ∧ ∃ m n : Memory, m.wf = true ∧ n.wf = true ∧ ∀ a, m.read a = n.read a :=
  ⟨by decide, s24.buf, s24.buf, by decide, by decide, fun _ => rfl⟩
theorem witness_HeaderFieldsAreLittleEndian :
    (s24.buf.read 18 = some 2 ∧ s24.buf.read (18 + 1) = some 0 ∧ s24.buf.read (18 + 2) = some 0 ∧
      s24.buf.read (18 + 3) = some 0) ∧
      s24.buf.read 10 = some 0x36 ∧ s24.buf.read 11 = some 0 ∧ s24.buf.read 12 = some 0 ∧ s24.buf.read 13 = some 0 := by
  decide
/-- At the last register, H_BPP. -/
theorem witness_HostReadsTheRegisterMap :
    (doing s24 (.regRead 0x20 .word)).status.busy = false ∧
      (doing s24 (.regRead 0x20 .word)).host = .regRead 0x20 .word :: [] ∧ 0x20 % 4 = 0 := ⟨rfl, rfl, rfl⟩
/-- LEN for the first clause; STATUS, and the reserved 0x0C, for the second. -/
theorem witness_HostWritesOnlyCmdAndLen :
    (∀ o v, (doing s24 (.regWrite o .word v)).status.busy = false ∧
      (doing s24 (.regWrite o .word v)).host = .regWrite o .word v :: []) ∧
      8 % 4 = 0 ∧ (4 % 4 = 0 ∧ 4 ≠ 0 ∧ 4 ≠ 8) ∧ (0x0C % 4 = 0 ∧ 0x0C ≠ 0 ∧ 0x0C ≠ 8) :=
  ⟨fun _ _ => ⟨rfl, rfl⟩, by decide⟩
/-- The reserved offsets 0x0C and 0x24, a byte access at offset 0, and offset 1. -/
theorem witness_ReservedOffsetsReadZeroAndShapeIsChecked :
    (∀ move, (doing s24 move).status.busy = false ∧ (doing s24 move).host = move :: []) ∧
      (0x0C % 4 = 0 ∧ (0x0C = 0x0C ∨ 0x24 ≤ 0x0C)) ∧ (0x24 % 4 = 0 ∧ (0x24 = 0x0C ∨ 0x24 ≤ 0x24)) ∧
      (AccessSize.byte ≠ .word ∨ 0 % 4 ≠ 0) ∧ (AccessSize.word ≠ .word ∨ 1 % 4 ≠ 0) :=
  ⟨fun _ => ⟨rfl, rfl⟩, by decide⟩
/-- The last byte below the capacity, the first at it, a written and an unwritten byte. -/
theorem witness_HostReachesBufByBytesBelowCapacity :
    (∀ move, (doing s24 move).status.busy = false ∧ (doing s24 move).host = move :: []) ∧
      0xFFF < s24.cap.toNat ∧ s24.cap.toNat ≤ 0x1000 ∧ s24.buf.read 60 = some 70 ∧ 60 < s24.cap.toNat ∧
      s24.buf.read 0xFFF = none := ⟨fun _ => ⟨rfl, rfl⟩, by decide⟩
theorem witness_ResetInputBetweenCommandsGivesTheResetState :
    (doing s24 .reset).status.busy = false ∧ (doing s24 .reset).host = .reset :: [] := ⟨rfl, rfl⟩
theorem witness_StepKeepsTheInvariant :
    (s24.offerCommand 0x00180002#32).Inv ∧ ∃ t, step (s24.offerCommand 0x00180002#32) = .next t :=
  ⟨⟨by decide, by decide, by decide, rfl⟩, exists_next (by decide)⟩
theorem witness_StepKeepsTheCapacity : ∃ t, step (doing s24 (.bufWrite 60 1)) = .next t := ⟨_, rfl⟩
/-- A loaded state with a command in flight; idle states whose host starts a command on a loaded buffer, writes CAP to
LEN before any byte is written, and reads the last loaded byte. -/
theorem witness_HostThatKeepsTheRulesNeverStopsTheMachine :
    (s24.acceptCommand 0x00180002#32).Loaded ∧
      (∀ s ∈ [doing s24 (.regWrite 0 .word 0x00180002#32), doing (State.resetFor 0x1000#32) (.regWrite 8 .word 0x1000#32),
          doing s24 (.bufRead 60)],
        s.len.toNat ≤ s.cap.toNat ∧ s.status.busy = false ∧ s.host.length = 1) ∧
      (∀ move rest, (doing s24 (.regWrite 0 .word 0x00180002#32)).host = move :: rest →
        move.legal (doing s24 (.regWrite 0 .word 0x00180002#32))) ∧
      (∀ move rest, (doing (State.resetFor 0x1000#32) (.regWrite 8 .word 0x1000#32)).host = move :: rest →
        move.legal (doing (State.resetFor 0x1000#32) (.regWrite 8 .word 0x1000#32))) ∧
      ∀ move rest, (doing s24 (.bufRead 60)).host = move :: rest → move.legal (doing s24 (.bufRead 60)) := by
  refine ⟨by decide, by decide, ?_, ?_, ?_⟩ <;> rintro _ _ ⟨⟩
  · exact ⟨rfl, fun _ _ _ => by decide, fun h => absurd h (by decide)⟩
  · exact ⟨rfl, fun h => absurd h (by decide), fun _ => by decide⟩
  · exact ⟨by decide, rfl⟩

end Sys2Proof.Tests
end

namespace Sys2Proof.Machine

/-! ### CAP is a parameter (00_scope R7, 10_state R35)

No update of the state changes CAP, the reset input among them, so each level of a step, from one command up to `step`,
keeps it. -/

theorem exec_cap {i : Instr} {s t : State} (h : exec i s = .next t) : t.cap = s.cap := by
  obtain ⟨c, _, rfl⟩ | ⟨_, _, _, _, _, _, _, rfl⟩ | ⟨_, _, _, _, _, _, rfl⟩ := exec_next h
  · exact s.endCommand_cap c
  · simp
  · simp

theorem runCommand_cap {s t : State} (h : runCommand s = .next t) : t.cap = s.cap := by
  obtain ⟨_, _, _, hexec⟩ | ⟨reject, _, rfl⟩ := runCommand_next h
  · exact exec_cap hexec
  · exact s.endCommand_cap (conditionOfReject reject)

theorem hostAccess_cap {move : HostMove} {s t : State} (h : hostAccess move s = .next t) : t.cap = s.cap := by
  obtain ⟨w, _, hrun⟩ | ⟨_, _, rfl⟩ | ⟨_, _, _, _, _, rfl⟩ | ⟨_, _, rfl⟩ | ⟨_, _, _, _, rfl⟩ |
    ⟨_, _, _, _, _, rfl⟩ | ⟨_, rfl⟩ := hostAccess_next h
  -- the writes of CMD, of LEN and of any other register, a register read, a byte written, a byte read, reset
  · exact (runCommand_cap hrun).trans (s.acceptCommand_cap w)
  · rfl
  · rfl
  · exact s.answer_cap _
  · rfl
  · exact s.answer_cap _
  · exact s.afterReset_cap

/-- Settles O56: by the cases of one step, a command in flight, no host access, or the host's next access. -/
theorem stepKeepsTheCapacity : Obligations.StepKeepsTheCapacity := by
  intro s t h
  obtain ⟨_, hrun⟩ | ⟨_, _, rfl⟩ | ⟨_, _, rest, _, hacc⟩ := step_next h
  · exact (runCommand_cap hrun).trans (s.take_cap s.host)
  · exact s.take_cap []
  · exact (hostAccess_cap hacc).trans (s.take_cap rest)

end Sys2Proof.Machine

namespace Sys2Proof.Machine

/-! ### The invariant of BUF and H_BPP (10_state R25, R33, 20_memory R51) -/

/-- The part of `State.Inv` that also holds while a command is in flight: what it says of BUF and H_BPP. -/
structure State.DataInv (s : State) : Prop where
  bufCanonical : s.buf.wf = true
  bufWithinCapacity : s.buf.below s.cap.toNat = true
  bppReservedZero : s.hBpp.toNat < 65536

theorem State.Inv.data {s : State} (h : s.Inv) : s.DataInv :=
  ⟨h.bufCanonical, h.bufWithinCapacity, h.bppReservedZero⟩

theorem State.DataInv.acceptCommand {s : State} (h : s.DataInv) (w : Word) : (s.acceptCommand w).DataInv :=
  ⟨h.bufCanonical, h.bufWithinCapacity, h.bppReservedZero⟩

theorem State.DataInv.take {s : State} (h : s.DataInv) (rest : List HostMove) : (s.take rest).DataInv :=
  ⟨h.bufCanonical, h.bufWithinCapacity, h.bppReservedZero⟩

/-- The end of a command leaves the block idle. -/
theorem State.DataInv.endCommand {s : State} (h : s.DataInv) (c : Code) : (s.endCommand c).Inv :=
  ⟨h.bufCanonical, h.bufWithinCapacity, h.bppReservedZero, rfl⟩

/-- H_BPP is loaded zero-extended from 16 bits. -/
theorem State.DataInv.loadHeader {s : State} (h : s.DataInv) (hd : Header) : (s.loadHeader hd).DataInv where
  bufCanonical := h.bufCanonical
  bufWithinCapacity := h.bufWithinCapacity
  bppReservedZero := by
    rw [State.loadHeader_hBpp, BitVec.toNat_setWidth_of_le (by decide)]
    exact BitVec.isLt _

/-- A transform writes below LEN only, so below CAP. -/
theorem State.DataInv.transform {s : State} (h : s.DataInv) {T : Nat → Nat → Memory → Option Memory}
    (hT : IsTransform T) (hlen : s.len.toNat ≤ s.cap.toNat) {off : Nat} {buf : Memory}
    (hbuf : T off s.len.toNat s.buf = some buf) : State.DataInv { s with buf := buf } where
  bufCanonical := hT.keeps (P := fun m => m.wf = true) (fun _ a v _ hm => Memory.wf_write a v hm) h.bufCanonical hbuf
  bufWithinCapacity := hT.keeps (P := fun m => m.below s.cap.toNat = true)
    (fun _ _ v ha hm => Memory.below_write v (Nat.lt_of_lt_of_le ha hlen) hm) h.bufWithinCapacity hbuf
  bppReservedZero := h.bppReservedZero

theorem State.Inv.take {s : State} (h : s.Inv) (rest : List HostMove) : (s.take rest).Inv :=
  ⟨h.bufCanonical, h.bufWithinCapacity, h.bppReservedZero, h.idle⟩

theorem State.Inv.answer {s : State} (h : s.Inv) (a : Answer) : (s.answer a).Inv :=
  ⟨h.bufCanonical, h.bufWithinCapacity, h.bppReservedZero, h.idle⟩

theorem State.Inv.bufWrite {s : State} (h : s.Inv) {a : Nat} (ha : a < s.cap.toNat) (v : Byte) :
    State.Inv { s with buf := s.buf.write a v } :=
  ⟨Memory.wf_write a v h.bufCanonical, Memory.below_write v ha h.bufWithinCapacity, h.bppReservedZero, h.idle⟩

theorem State.resetFor_inv (cap : Word) : (State.resetFor cap).Inv := ⟨rfl, rfl, by simp, rfl⟩

theorem State.afterReset_inv (s : State) : s.afterReset.Inv := ⟨rfl, rfl, by simp, rfl⟩

theorem exec_inv {i : Instr} {s t : State} (hs : s.DataInv) (h : exec i s = .next t) : t.Inv := by
  obtain ⟨c, _, rfl⟩ | ⟨_, _, hd, _, _, _, _, rfl⟩ | ⟨_, hT, _, _, ⟨_, hlen, _⟩, hbuf, rfl⟩ := exec_next h
  · exact hs.endCommand c
  · exact (hs.loadHeader hd).endCommand .ok
  · exact (hs.transform hT hlen hbuf).endCommand .ok

theorem runCommand_inv {s t : State} (hs : s.DataInv) (h : runCommand s = .next t) : t.Inv := by
  obtain ⟨_, _, _, hexec⟩ | ⟨reject, _, rfl⟩ := runCommand_next h
  · exact exec_inv hs hexec
  · exact hs.endCommand (conditionOfReject reject)

theorem hostAccess_inv {move : HostMove} {s t : State} (hs : s.Inv) (h : hostAccess move s = .next t) : t.Inv := by
  obtain ⟨w, _, hrun⟩ | ⟨_, _, rfl⟩ | ⟨_, _, _, _, _, rfl⟩ | ⟨_, _, rfl⟩ | ⟨_, v, _, ha, rfl⟩ |
    ⟨_, _, _, _, _, rfl⟩ | ⟨_, rfl⟩ := hostAccess_next h
  -- the writes of CMD, of LEN and of any other register, a register read, a byte written, a byte read, reset
  · exact runCommand_inv (hs.data.acceptCommand w) hrun
  · exact ⟨hs.bufCanonical, hs.bufWithinCapacity, hs.bppReservedZero, hs.idle⟩
  · exact hs
  · exact hs.answer _
  · exact hs.bufWrite ha v
  · exact hs.answer _
  · exact s.afterReset_inv

/-- Settles O55: by the cases of one step, each update of the state keeping BUF and H_BPP as the invariant says. -/
theorem stepKeepsTheInvariant : Obligations.StepKeepsTheInvariant := by
  intro s t hs h
  obtain ⟨_, hrun⟩ | ⟨_, _, rfl⟩ | ⟨_, _, rest, _, hacc⟩ := step_next h
  · exact runCommand_inv (hs.data.take s.host) hrun
  · exact hs.take []
  · exact hostAccess_inv (hs.take rest) hacc

/-- Settles O54: every field is 0 and no byte is listed. -/
theorem invariantHoldsAtReset : Obligations.InvariantHoldsAtReset :=
  ⟨State.resetFor_inv Config.resetCapacity, State.resetFor_inv⟩

/-- Settles O44: the canonical form is kept by each write, and it makes the list a function of its readings. -/
theorem writesKeepTheCanonicalForm : Obligations.WritesKeepTheCanonicalForm :=
  ⟨fun _ a v h => Memory.wf_write a v h, fun _ _ hm hn h => Memory.eq_of_read_eq hm hn h⟩

/-! ### What a command leaves unchanged (10_state R26, R30, R32) -/

/-- A command writes neither CMD, LEN, CAP nor the host's lists. -/
theorem exec_frame {i : Instr} {s t : State} (h : exec i s = .next t) :
    t.cmd = s.cmd ∧ t.len = s.len ∧ t.cap = s.cap ∧ t.host = s.host ∧ t.seen = s.seen := by
  obtain ⟨_, _, rfl⟩ | ⟨_, _, _, _, _, _, _, rfl⟩ | ⟨_, _, _, _, _, _, rfl⟩ := exec_next h
  · exact ⟨rfl, rfl, rfl, rfl, rfl⟩
  · exact ⟨rfl, rfl, rfl, rfl, rfl⟩
  · exact ⟨rfl, rfl, rfl, rfl, rfl⟩

theorem runCommand_cmd_len {s t : State} (h : runCommand s = .next t) : t.cmd = s.cmd ∧ t.len = s.len := by
  obtain ⟨_, _, _, hexec⟩ | ⟨_, _, rfl⟩ := runCommand_next h
  · obtain ⟨hcmd, hlen, _⟩ := exec_frame hexec
    exact ⟨hcmd, hlen⟩
  · exact ⟨rfl, rfl⟩

/-- The step at which the host writes CMD. -/
theorem State.Offers.step_eq {s : State} {w : Word} {rest : List HostMove} (h : s.Offers w rest) :
    step s = runCommand ((s.take rest).acceptCommand w) :=
  step_host h.1 h.2

/-- Settles O13: no way a command ends writes these fields, and the step hands the word and LEN to the command. -/
theorem cmdHoldsTheWordWrittenAndLenIsKept : Obligations.CmdHoldsTheWordWrittenAndLenIsKept := by
  refine ⟨fun _ _ _ h => exec_frame h, fun s t w rest hoffer h => ?_⟩
  rw [hoffer.step_eq] at h
  exact runCommand_cmd_len h

/-- Settles O6: the step is `runCommand` on a word that decodes, with LEN within CAP. -/
theorem stepRunsTheCommandWrittenToCmd : Obligations.StepRunsTheCommandWrittenToCmd := by
  intro s w rest i hoffer hlen hdec
  rw [hoffer.step_eq]
  exact runCommand_of_ok hlen hdec

/-- Settles O23: of the three ways a command ends, only INSPECT's load of the header touches these registers. -/
theorem onlySuccessfulInspectWritesHeaderRegisters : Obligations.OnlySuccessfulInspectWritesHeaderRegisters := by
  intro i s t h hchanged
  obtain ⟨_, _, rfl⟩ | ⟨ch, depth, _, rfl, _, _, _, rfl⟩ | ⟨_, _, _, _, _, _, rfl⟩ := exec_next h
  · exact absurd ⟨rfl, rfl, rfl, rfl, rfl⟩ hchanged
  · exact ⟨⟨ch, depth, rfl⟩, rfl⟩
  · exact absurd ⟨rfl, rfl, rfl, rfl, rfl⟩ hchanged

/-! ### Commands that would read an unwritten byte (10_state R37, 93 U3) -/

/-- A little-endian read answers nothing when one of its bytes is unwritten. -/
theorem Memory.readLE_eq_none {m : Memory} {a n c : Nat} (h1 : a ≤ c) (h2 : c < a + n) (hc : m.read c = none) :
    m.readLE a n = none := by
  by_contra hne
  have hw := (Memory.readLE_isSome m n a).1 (Option.isSome_iff_ne_none.2 hne) c h2 h1
  simp [hc] at hw

theorem readOffset_eq_none {m : Memory} {a : Nat} (h1 : 10 ≤ a) (h2 : a < 14) (ha : m.read a = none) :
    readOffset m = none :=
  Memory.readLE_eq_none h1 h2 ha

/-- A header that reads has all its bytes written. -/
theorem readHeader_written {m : Memory} {hd : Header} (h : readHeader m = some hd) :
    m.Written 2 6 ∧ m.Written 10 14 ∧ m.Written 18 26 ∧ m.Written 28 30 := by
  have written : ∀ {a n v}, m.readLE a n = some v → m.Written a (a + n) := fun hv =>
    (Memory.readLE_isSome m _ _).1 (by simp [hv])
  unfold readHeader at h
  split at h
  · rename_i hsize hoff hwidth hheight hbpp
    refine ⟨written hsize, written hoff, fun a h1 h2 => ?_, written hbpp⟩
    rcases Nat.lt_or_ge a 22 with ha | ha
    · exact written hwidth a ha h2
    · exact written hheight a h1 ha
  · cases h

/-- INSPECT is refused when the header does not read. -/
theorem execInspect_unwritten {s : State} (h1 : hdrMin ≤ s.len.toNat) (h2 : s.len.toNat ≤ s.cap.toNat)
    (h3 : readHeader s.buf = none) (ch depth : Nat) : execInspect ch depth s = .refused .unwrittenByte := by
  unfold execInspect
  rw [withLength_ready h1 h2, h3]

theorem readHeader_eq_none {m : Memory} {a : Nat}
    (ha : a ∈ [2, 3, 4, 5, 10, 11, 12, 13, 18, 19, 20, 21, 22, 23, 24, 25, 28, 29]) (hr : m.read a = none) :
    readHeader m = none := by
  by_contra hne
  obtain ⟨hd, hhd⟩ := Option.ne_none_iff_exists'.1 hne
  obtain ⟨hsize, hoff, hdims, hbpp⟩ := readHeader_written hhd
  have hfields : (2 ≤ a ∧ a < 6) ∨ (10 ≤ a ∧ a < 14) ∨ (18 ≤ a ∧ a < 26) ∨ 28 ≤ a ∧ a < 30 := by
    simp only [List.mem_cons, List.not_mem_nil, or_false] at ha
    omega
  have hsome : (m.read a).isSome = true := by
    obtain ⟨h1, h2⟩ | ⟨h1, h2⟩ | ⟨h1, h2⟩ | ⟨h1, h2⟩ := hfields
    · exact hsize a h2 h1
    · exact hoff a h2 h1
    · exact hdims a h2 h1
    · exact hbpp a h2 h1
  simp [hr] at hsome

/-- FILTER.4 and DARKEN.4 accept the four channels of depth 4. -/
theorem operandCondition_depth4_none {op : Operation} {ch : Nat} (hop : op = .filter ∨ op = .darken) (h : ch < 4) :
    operandCondition 4 op ch = none := by
  rw [operandCondition_depth4, if_pos h, if_pos hop]

/-- Every operation accepts the three channels of depth 24. -/
theorem operandCondition_depth24_none (op : Operation) {ch : Nat} (h : ch < 3) :
    operandCondition 24 op ch = none := by
  rw [operandCondition_depth24, if_pos h]

/-- A modifying walk that meets an unwritten byte has no answer. -/
theorem scan_modify_eq_none (f : Byte → Byte) {off len a : Nat} {m : Memory} (h1 : off ≤ a) (h2 : a < len)
    (ha : m.read a = none) : scan (visitModify f) 1 off len m = none := by
  by_contra hne
  obtain ⟨m', hm'⟩ := Option.ne_none_iff_exists'.1 hne
  have hw := scan_modify_written hm' a h2 h1
  simp [ha] at hw

/-- GRAY.24 has no answer when a byte of a whole group is unwritten. -/
theorem grayWalk24_eq_none {off len a : Nat} {m : Memory} (h1 : off ≤ a) (h2 : groupStart off a + 2 < len)
    (ha : m.read a = none) : grayWalk24 off len m = none := by
  by_contra hne
  obtain ⟨m', hm'⟩ := Option.ne_none_iff_exists'.1 hne
  have hw := grayWalk24_written hm' h1 h2
  simp [ha] at hw

/-- Settles O35: an unwritten byte leaves the header, the offset or the walk that reads it without an answer. -/
theorem unwrittenByteThatWouldBeReadIsRefused : Obligations.UnwrittenByteThatWouldBeReadIsRefused := by
  intro s ch depth a hlen hcap ha
  have filter (h : ch < 4) := operandCondition_depth4_none (.inl rfl) h
  have darken (h : ch < 4) := operandCondition_depth4_none (.inr rfl) h
  refine ⟨fun hmem => ?_, fun h10 h14 => ?_, fun off hoff hle hlt => ?_⟩
  · exact execInspect_unwritten hlen hcap (readHeader_eq_none hmem ha) ch depth
  · have hnone := readOffset_eq_none h10 h14 ha
    have refused {d op T} (hc : operandCondition d op ch = none) :
        applyCommand d op ch T s = .refused .unwrittenByte := applyCommand_noOffset hc hlen hcap hnone
    have depth24 (op) (h : ch < 3) := operandCondition_depth24_none op h
    exact ⟨fun h => ⟨refused (filter h), refused (darken h)⟩,
      fun h => ⟨refused (depth24 _ h), refused (depth24 _ h), refused (depth24 _ h), refused (depth24 _ h),
        refused (depth24 _ h)⟩⟩
  · have hready : s.OffsetReady off := ⟨hlen, hcap, hoff⟩
    exact ⟨fun h => ⟨applyCommand_unwritten (filter h) hready (scan_modify_eq_none _ hle hlt ha),
        applyCommand_unwritten (darken h) hready (scan_modify_eq_none _ hle hlt ha)⟩,
      fun h hgroup => applyCommand_unwritten (operandCondition_depth24_none .gray h) hready
        (grayWalk24_eq_none hle hgroup ha)⟩

/-! ### The host's accesses (10_state R29, R31, R33, R38) -/

theorem accessDefined_iff {offset : Nat} {size : AccessSize} :
    accessDefined offset size = true ↔ size = .word ∧ offset % 4 = 0 := by
  simp [accessDefined]

theorem hostAccess_regRead {offset : Nat} (h : offset % 4 = 0) (s : State) :
    hostAccess (.regRead offset .word) s = .next (s.answer (.register (s.readRegister offset))) :=
  if_pos (accessDefined_iff.2 ⟨rfl, h⟩)

theorem hostAccess_regWrite {offset : Nat} (h : offset % 4 = 0) (v : Word) (s : State) :
    hostAccess (.regWrite offset .word v) s = writeRegister offset v s :=
  if_pos (accessDefined_iff.2 ⟨rfl, h⟩)

theorem accessDefined_of_shape {offset : Nat} {size : AccessSize} (h : size ≠ .word ∨ offset % 4 ≠ 0) :
    ¬accessDefined offset size = true := by
  rw [accessDefined_iff]
  rintro ⟨hsize, halign⟩
  exact h.elim (· hsize) (· halign)

theorem hostAccess_regRead_refused {offset : Nat} {size : AccessSize} (h : size ≠ .word ∨ offset % 4 ≠ 0) (s : State) :
    hostAccess (.regRead offset size) s = .refused .registerAccessShape :=
  if_neg (accessDefined_of_shape h)

theorem hostAccess_regWrite_refused {offset : Nat} {size : AccessSize} (h : size ≠ .word ∨ offset % 4 ≠ 0) (v : Word)
    (s : State) : hostAccess (.regWrite offset size v) s = .refused .registerAccessShape :=
  if_neg (accessDefined_of_shape h)

theorem writeRegister_len (v : Word) (s : State) : writeRegister lenOffset v s = .next { s with len := v } := rfl

theorem writeRegister_ignored {offset : Nat} (hc : offset ≠ cmdOffset) (hl : offset ≠ lenOffset) (v : Word)
    (s : State) : writeRegister offset v s = .next s := by
  rw [writeRegister, if_neg hc, if_neg hl]

/-- H_BPP reads as its low 16 bits, zero-extended (10_state R25). -/
theorem and_low_half_eq_setWidth (w : Word) : w &&& 0x0000FFFF#32 = BitVec.setWidth 32 (BitVec.setWidth 16 w) := by
  apply BitVec.eq_of_toNat_eq
  rw [BitVec.toNat_and, BitVec.toNat_setWidth_of_le (by decide), BitVec.toNat_setWidth]
  exact Nat.and_two_pow_sub_one_eq_mod w.toNat 16

/-- Offsets 0x0C and from 0x24 upward hold no register (10_state R38). -/
theorem State.readRegister_reserved {offset : Nat} (h : offset = 0x0C ∨ 0x24 ≤ offset) (s : State) :
    s.readRegister offset = 0#32 := by
  unfold State.readRegister cmdOffset statusOffset lenOffset hSizeOffset hOffOffset hWidthOffset hHeightOffset
    hBppOffset
  repeat rw [if_neg (by omega)]

/-- Settles O47: `readRegister` is the register map. -/
theorem hostReadsTheRegisterMap : Obligations.HostReadsTheRegisterMap := by
  intro s offset rest hidle hhost halign
  rw [step_host hidle hhost, hostAccess_regRead halign, ← and_low_half_eq_setWidth]
  rfl

/-- Settles O48: the branches of `writeRegister`. -/
theorem hostWritesOnlyCmdAndLen : Obligations.HostWritesOnlyCmdAndLen := by
  intro s offset v rest hidle hhost halign
  rw [step_host hidle hhost, hostAccess_regWrite halign]
  refine ⟨?_, fun hcmd hlen => writeRegister_ignored hcmd hlen v _⟩
  rintro rfl
  exact writeRegister_len v _

/-- Settles O49: a reserved offset is none of the register map, and `accessDefined` checks the shape. -/
theorem reservedOffsetsReadZeroAndShapeIsChecked : Obligations.ReservedOffsetsReadZeroAndShapeIsChecked := by
  constructor
  · intro s offset rest hidle halign hreserved
    refine ⟨fun hhost => ?_, fun v hhost => ?_⟩
    · rw [step_host hidle hhost, hostAccess_regRead halign, State.readRegister_reserved hreserved]
      rfl
    · rw [step_host hidle hhost, hostAccess_regWrite halign]
      exact writeRegister_ignored (by unfold cmdOffset; omega) (by unfold lenOffset; omega) v _
  · intro s offset size rest hidle hshape
    refine ⟨fun hhost => ?_, fun v hhost => ?_⟩
    · exact (step_host hidle hhost).trans (hostAccess_regRead_refused hshape _)
    · exact (step_host hidle hhost).trans (hostAccess_regWrite_refused hshape v _)

theorem hostAccess_bufWrite {a : Nat} {s : State} (ha : a < s.cap.toNat) (v : Byte) :
    hostAccess (.bufWrite a v) s = .next { s with buf := s.buf.write a v } :=
  if_pos ha

theorem hostAccess_bufWrite_beyond {a : Nat} {s : State} (ha : s.cap.toNat ≤ a) (v : Byte) :
    hostAccess (.bufWrite a v) s = .fault .addressBeyondCapacity :=
  if_neg (by omega)

theorem hostAccess_bufRead {a : Nat} {s : State} (ha : a < s.cap.toNat) {b : Byte} (hb : s.buf.read a = some b) :
    hostAccess (.bufRead a) s = .next (s.answer (.byte b)) := by
  simp only [hostAccess, if_pos ha, hb]

theorem hostAccess_bufRead_unwritten {a : Nat} {s : State} (ha : a < s.cap.toNat) (hb : s.buf.read a = none) :
    hostAccess (.bufRead a) s = .refused .unwrittenByte := by
  simp only [hostAccess, if_pos ha, hb]

theorem hostAccess_bufRead_beyond {a : Nat} {s : State} (ha : s.cap.toNat ≤ a) :
    hostAccess (.bufRead a) s = .fault .addressBeyondCapacity :=
  if_neg (by omega)

/-- Settles O50: one rule per access to BUF, below CAP and from CAP. -/
theorem hostReachesBufByBytesBelowCapacity : Obligations.HostReachesBufByBytesBelowCapacity := by
  intro s a rest hidle
  refine ⟨fun v hhost => ?_, fun hhost => ?_⟩
  · rw [step_host hidle hhost]
    exact ⟨fun ha => hostAccess_bufWrite (s := s.take rest) ha v,
      fun ha => hostAccess_bufWrite_beyond (s := s.take rest) ha v⟩
  · rw [step_host hidle hhost]
    exact ⟨fun ha _ hb => hostAccess_bufRead (s := s.take rest) ha hb,
      fun ha hb => hostAccess_bufRead_unwritten (s := s.take rest) ha hb,
      fun ha => hostAccess_bufRead_beyond (s := s.take rest) ha⟩

/-! ### STATUS as a word (10_state R31) -/

/-- There are six codes, 0 to 5 (60_exceptions R180). -/
theorem Code.number_lt (c : Code) : c.number < 6 := by
  cases c <;> decide

theorem Status.word_toNat (st : Status) :
    st.word.toNat = st.code.number + if st.busy then 2147483648 else 0 := by
  have := st.code.number_lt
  rw [Status.word, BitVec.toNat_ofNat]
  exact Nat.mod_eq_of_lt (by split <;> omega)

/-- Settles O46: the word is the code number plus BUSY at 2 ^ 31, and the code number is below 16. -/
theorem statusWordHoldsCodeAndBusy : Obligations.StatusWordHoldsCodeAndBusy := by
  intro st
  have := st.code.number_lt
  rw [Status.word_toNat]
  split <;> omega

/-! ### The code a command reports (30_encoding R85, 60_exceptions R186) -/

/-- On the words of an APPLY the reported code is the operand condition, and the length check comes after it. -/
theorem reportedCode_apply {w : Word} {op : Operation} (hr : rsvField w = 0) (hop : op.code = opField w) (len : Nat) :
    reportedCode w len = (operandCondition (depthField w) op (chField w)).getD
      (if len < hdrMin then .truncatedHeader else .ok) := by
  have hcode : op.code ≤ 4 := by cases op <;> decide
  have hoffered : op = .filter ∨ op = .darken ↔ op.code < 2 := by cases op <;> decide
  unfold reportedCode
  rw [if_neg (by omega), if_neg (by omega)]
  by_cases h4 : depthField w = 4
  · rw [h4, operandCondition_depth4, if_neg (by omega)]
    by_cases hch : chField w < 4
    · rw [if_neg (by omega), if_pos hch]
      by_cases hlt : op.code < 2
      · rw [if_neg (by omega), if_pos (hoffered.2 hlt)]
        rfl
      · rw [if_pos (by omega), if_neg (mt hoffered.1 hlt)]
        rfl
    · rw [if_pos (by omega), if_neg hch]
      rfl
  by_cases h24 : depthField w = 24
  · rw [h24, operandCondition_depth24, if_neg (by omega)]
    by_cases hch : chField w < 3
    · rw [if_neg (by omega), if_neg (by omega), if_pos hch]
      rfl
    · rw [if_pos (by omega), if_neg hch]
      rfl
  rw [if_pos ⟨h4, h24⟩, operandCondition_other h4 h24]
  rfl

theorem reportedCode_illegal {w : Word} (h : rsvField w ≠ 0 ∨ 6 ≤ opField w) (len : Nat) :
    reportedCode w len = .illegalCommand :=
  if_pos h

theorem reportedCode_inspect {w : Word} (hr : rsvField w = 0) (ho : opField w = 5) (len : Nat) :
    reportedCode w len = if len < hdrMin then .truncatedHeader else .ok := by
  unfold reportedCode
  rw [if_neg (by omega), if_pos ho]
  rfl

/-- An APPLY command ends with its operand condition, or else with the length check where the header is too short. -/
theorem applyCommand_condition_or_short {depth : Nat} {op : Operation} {ch : Nat}
    {T : Nat → Nat → Memory → Option Memory} {s : State} {c : Code}
    (hc : c = (operandCondition depth op ch).getD (if s.len.toNat < hdrMin then .truncatedHeader else .ok))
    (hne : c ≠ .ok) : applyCommand depth op ch T s = .next (s.endCommand c) := by
  cases hcond : operandCondition depth op ch with
  | some condition =>
    rw [hcond] at hc
    exact hc ▸ applyCommand_condition hcond s
  | none =>
    rw [hcond, Option.getD_none] at hc
    by_cases hlen : s.len.toNat < hdrMin
    · rw [if_pos hlen] at hc
      exact hc ▸ applyCommand_short hcond hlen
    · exact absurd (hc.trans (if_neg hlen)) hne

/-- A word that reports a condition ends with it: the illegal words, INSPECT, and the APPLY words at a named and at an
unnamed depth. -/
theorem runCommand_reportedCode {s : State} (hcap : s.len.toNat ≤ s.cap.toNat ∨ rsvField s.cmd ≠ 0 ∨ 6 ≤ opField s.cmd)
    (h : reportedCode s.cmd s.len.toNat ≠ .ok) :
    runCommand s = .next (s.endCommand (reportedCode s.cmd s.len.toNat)) := by
  by_cases hill : rsvField s.cmd ≠ 0 ∨ 6 ≤ opField s.cmd
  · rw [reportedCode_illegal hill]
    exact runCommand_of_illegal (decode_illegal hill)
  have hlen : s.len.toNat ≤ s.cap.toNat := hcap.resolve_right hill
  have hr : rsvField s.cmd = 0 := by omega
  by_cases h5 : opField s.cmd = 5
  · rw [reportedCode_inspect hr h5] at h ⊢
    rw [runCommand_of_ok hlen (decode_inspect hr h5)]
    by_cases hshort : s.len.toNat < hdrMin
    · rw [if_pos hshort]
      exact withLength_short hshort _
    · exact absurd (if_neg hshort) h
  · obtain ⟨op, hop, hdec⟩ := decode_apply hr (by omega)
    obtain ⟨_, i, hi, hdepth, hch, hcode⟩ | ⟨hdepth, herr⟩ := decodeApply_cases (depthField s.cmd) op (chField s.cmd)
    · obtain ⟨hne, hopi⟩ := operationOf_of_opCode hcode
      rw [runCommand_of_ok hlen (hdec.trans hi), exec_apply hne, hdepth, hopi, hch]
      exact applyCommand_condition_or_short (reportedCode_apply hr hop _) h
    · have hnot : depthField s.cmd ≠ 4 ∧ depthField s.cmd ≠ 24 := by
        simp only [List.mem_cons, List.not_mem_nil, or_false] at hdepth
        omega
      rw [runCommand_of_error hlen (hdec.trans herr), reportedCode_apply hr hop,
        operandCondition_other hnot.1 hnot.2]
      rfl

/-- No word reports OK on a buffer shorter than the header. -/
theorem reportedCode_short_ne_ok (w : Word) {len : Nat} (h : len < hdrMin) : reportedCode w len ≠ .ok := by
  by_cases hill : rsvField w ≠ 0 ∨ 6 ≤ opField w
  · simp [reportedCode_illegal hill]
  have hr : rsvField w = 0 := by omega
  by_cases h5 : opField w = 5
  · simp [reportedCode_inspect hr h5, h]
  · obtain ⟨op, hop, _⟩ := decode_apply hr (by omega)
    rw [reportedCode_apply hr hop]
    cases hc : operandCondition (depthField w) op (chField w) with
    | some c => exact operandCondition_ne_ok hc
    | none => simp [h]

/-- Settles O52: LEN is 0 after reset, so every word reports a condition and ends with it. -/
theorem everyWordReportsAConditionRightAfterReset : Obligations.EveryWordReportsAConditionRightAfterReset := by
  intro cap w
  have hcond : reportedCode w 0 ≠ .ok := reportedCode_short_ne_ok w (by decide)
  have hoffer : ((State.resetFor cap).offerCommand w).Offers w [] := ⟨rfl, rfl⟩
  refine ⟨hcond, ?_⟩
  rw [hoffer.step_eq]
  exact runCommand_reportedCode (.inl (Nat.zero_le _)) hcond

end Sys2Proof.Machine

namespace Sys2Proof.Machine

/-! ### BUF as a memory, and its little-endian fields (20_memory R53, R58) -/

/-- Settles O43: the two cases of a read after a write. -/
theorem byteReadsWhatWasLastWritten : Obligations.ByteReadsWhatWasLastWritten :=
  fun m a _ v => ⟨m.read_write_same a v, m.read_write_other v⟩

/-- The byte at the lowest address is the least significant. -/
theorem Memory.readLE_succ_of_some {m : Memory} {a n r : Nat} {b : Byte} (hb : m.read a = some b)
    (hr : m.readLE (a + 1) n = some r) : m.readLE a (n + 1) = some (b.toNat + 256 * r) := by
  rw [Memory.readLE, hb, hr]

/-- The little-endian value of two bytes. -/
theorem Memory.readLE_two {m : Memory} {a : Nat} {b0 b1 : Byte} (h0 : m.read a = some b0)
    (h1 : m.read (a + 1) = some b1) : m.readLE a 2 = some (b0.toNat + 256 * b1.toNat) :=
  readLE_succ_of_some h0 (readLE_succ_of_some (r := 0) h1 rfl)

/-- Settles O45: the two low bytes, then the two high bytes, and the offset as the field of four bytes at 10. -/
theorem headerFieldsAreLittleEndian : Obligations.HeaderFieldsAreLittleEndian := by
  refine ⟨fun m a b0 b1 b2 b3 h0 h1 h2 h3 => ⟨?_, Memory.readLE_two h0 h1⟩, fun m h0 h1 h2 h3 => ?_⟩
  · rw [Memory.readLE_succ_of_some h0 (Memory.readLE_succ_of_some h1 (Memory.readLE_two h2 h3)), Option.some_inj]
    omega
  · exact readOffset_eq_some_iff.2 ⟨_, _, _, _, h0, h1, h2, h3, by decide⟩

/-! ### A flood over the offset field (20_memory R67, 41_unpack_dispatch R129) -/

/-- The value of the offset field after a flood with `v` from an offset `off` at most 13, which the field held before
it. -/
def floodedOffset (v : Byte) (off : Nat) : Nat :=
  (if off ≤ 10 then v.toNat else off) + 256 * ((if off ≤ 11 then v.toNat else 0) +
    256 * ((if off ≤ 12 then v.toNat else 0) + 256 * v.toNat))

/-- The next command reads `floodedOffset` after a flood of the field: byte 10 held `off`, bytes 11 to 13 held 0. -/
theorem readOffset_flooded {m m' : Memory} {v : Byte} {off len : Nat} (hoff : readOffset m = some off)
    (h13 : off ≤ 13) (hlen : 13 < len)
    (hread : ∀ j, m'.read j = if off ≤ j ∧ j < len then some v else m.read j) :
    readOffset m' = some (floodedOffset v off) := by
  obtain ⟨b0, b1, b2, b3, h0, h1, h2, h3, hsum⟩ := readOffset_eq_some_iff.1 hoff
  have hbytes : b0.toNat = off ∧ b1.toNat = 0 ∧ b2.toNat = 0 ∧ b3.toNat = 0 := by omega
  obtain ⟨hb0, hb1, hb2, -⟩ := hbytes
  have flooded {j : Nat} {b : Byte} (hj : j ≤ 13) (hb : m.read j = some b) :
      m'.read j = some (if off ≤ j then v else b) := by
    rw [hread j, hb, apply_ite some]
    exact if_congr (and_iff_left (by omega)) rfl rfl
  refine readOffset_eq_some_iff.2 ⟨_, _, _, _, flooded (by omega) h0, flooded (by omega) h1, flooded (by omega) h2,
    flooded (by omega) h3, ?_⟩
  simp only [floodedOffset, apply_ite BitVec.toNat, hb0, hb1, hb2, if_pos h13]

/-- WHITE.24 and BLACK.24 at a channel of depth 24: the command that gives `v` to the bytes from the offset to LEN. -/
theorem applyCommand_flood (op : Operation) (v : Byte) {s : State} {ch off : Nat} (hch : ch < 3)
    (hs : s.OffsetReady off) :
    ∃ buf, applyCommand 24 op ch (floodWalk24 v) s = .next (s.completedWith buf) ∧
      ∀ j, buf.read j = if off ≤ j ∧ j < s.len.toNat then some v else s.buf.read j := by
  obtain ⟨buf, hbuf⟩ := scan_fill_completes v Nat.one_pos off s.len.toNat s.buf
  exact ⟨buf, applyCommand_ready (operandCondition_depth24_none op hch) hs hbuf, floodWalk24_read hbuf⟩

/-- A flood over the offset field runs on the offset it read, and a flood run next on the offset it left. -/
theorem applyCommand_flood_flood (op op' : Operation) (v v' : Byte) {s : State} {ch ch' off off' : Nat}
    (hch : ch < 3) (hch' : ch' < 3) (hs : s.OffsetReady off) (h13 : off ≤ 13) (hoff' : off' = floodedOffset v off) :
    ∃ buf, applyCommand 24 op ch (floodWalk24 v) s = .next (s.completedWith buf) ∧
      (∀ j, buf.read j = if off ≤ j ∧ j < s.len.toNat then some v else s.buf.read j) ∧
      readOffset buf = some off' ∧
      ∃ buf', applyCommand 24 op' ch' (floodWalk24 v') (s.completedWith buf) = .next (s.completedWith buf') ∧
        ∀ j, buf'.read j = if off' ≤ j ∧ j < s.len.toNat then some v' else buf.read j := by
  obtain ⟨hlen, hcap, hoff⟩ := hs
  obtain ⟨buf, hrun, hread⟩ := applyCommand_flood op v hch ⟨hlen, hcap, hoff⟩
  have hfield : readOffset buf = some off' :=
    hoff' ▸ readOffset_flooded hoff h13 (Nat.lt_of_lt_of_le (by decide) hlen) hread
  exact ⟨buf, hrun, hread, hfield, applyCommand_flood op' v' hch' (s := s.completedWith buf) ⟨hlen, hcap, hfield⟩⟩

/-- BLACK.24 leaves an offset inside the field as it is, and any other as 0. -/
theorem floodedOffset_black (off : Nat) :
    floodedOffset 0x00#8 off = if off ≤ 10 then 0 else off := by
  simp [floodedOffset]

/-- WHITE.24 fills the field from the offset on. -/
theorem floodedOffset_white {off : Nat} (h13 : off ≤ 13) :
    floodedOffset 0xFF#8 off = if off ≤ 10 then 0xFFFFFFFF else if off = 11 then 0xFFFFFF0B
      else if off = 12 then 0xFFFF000C else 0xFF00000D := by
  unfold floodedOffset
  interval_cases off <;> rfl

/-- Settles O42: BLACK.24 then WHITE.24, and WHITE.24 then BLACK.24, are two floods in turn. -/
theorem floodOverTheOffsetFieldIsSeenByTheNextCommand :
    Obligations.FloodOverTheOffsetFieldIsSeenByTheNextCommand := by
  intro s ch ch' off hch hch' hs h13
  obtain ⟨black, hblack, hblackRead, hblackOff, hwhiteNext⟩ :=
    applyCommand_flood_flood .black .white 0x00#8 0xFF#8 hch hch' hs h13 (floodedOffset_black off).symm
  obtain ⟨white, hwhite, hwhiteRead, hwhiteOff, hblackNext⟩ :=
    applyCommand_flood_flood .white .black 0xFF#8 0x00#8 hch hch' hs h13 (floodedOffset_white h13).symm
  exact ⟨⟨black, hblack, hblackRead, _, rfl, hblackOff, hwhiteNext⟩,
    white, hwhite, hwhiteRead, _, rfl, hwhiteOff, hblackNext⟩

end Sys2Proof.Machine

namespace Sys2Proof

/-! ### The decoder against the encoder and the opcode table (30_encoding R80 to R92) -/

/-- An instruction is INSPECT, or the row that DEPTH, its operation and CH select. -/
theorem Instr.inspect_or_decodeApply (i : Instr) :
    (∃ ch depth, i = .inspect ch depth) ∨
      (i.opCode = (Machine.operationOf i).code ∧ decodeApply i.depth (Machine.operationOf i) i.ch = .ok i) := by
  cases i with
  | inspect ch depth => exact .inl ⟨ch, depth, rfl⟩
  | _ => exact .inr ⟨rfl, rfl⟩

/-- An APPLY word, by its operation. -/
theorem decode_of_opField_eq_code {w : Word} {op : Operation} (hr : rsvField w = 0) (ho : opField w = op.code) :
    decode w = decodeApply (depthField w) op (chField w) := by
  have hne : op.code ≠ inspectCode := by cases op <;> decide
  unfold decode
  rw [if_neg (not_not.2 hr), ho, if_neg hne, op.ofCode_code]

/-- Settles O1: the word holds the instruction's fields, and they select its row. -/
theorem decodeInvertsEncode : Obligations.DecodeInvertsEncode := by
  intro i hwf
  obtain ⟨hop, hch, hrsv, hdepth⟩ := Laws.WordFields.of_formatC i hwf
  obtain ⟨ch, depth, rfl⟩ | ⟨hcode, hrow⟩ := i.inspect_or_decodeApply
  · rw [decode_inspect hrsv hop, hch, hdepth]
    rfl
  · rw [decode_of_opField_eq_code hrsv (hop.trans hcode), hch, hdepth, hrow]

/-- Settles O2: an accepted word has RSV = 0 and gives its other three fields to the instruction. -/
theorem encodeInvertsDecode : Obligations.EncodeInvertsDecode := by
  intro w i h
  obtain ⟨hrsv, hch, hdepth, hop⟩ := decode_fields h
  refine ⟨i.wf_iff.2 ⟨hch ▸ chField_lt w, hdepth ▸ depthField_lt w⟩, ?_⟩
  rw [encode, hdepth, hch, hop, formatC_fields hrsv]

/-- The words the decoder accepts, by their fields. -/
theorem decode_ok_iff (w : Word) :
    (∃ i, decode w = .ok i) ↔
      rsvField w = 0 ∧ (opField w = 5 ∨ (opField w ≤ 4 ∧ depthField w ∈ [4, 8, 16, 24, 32])) := by
  by_cases hill : rsvField w ≠ 0 ∨ 6 ≤ opField w
  · exact iff_of_false (by simp [decode_illegal hill]) (by omega)
  have hr : rsvField w = 0 := by omega
  by_cases h5 : opField w = 5
  · simp [decode_inspect hr h5, hr, h5]
  have ho : opField w ≤ 4 := by omega
  obtain ⟨op, -, hdec⟩ := decode_apply hr ho
  rw [hdec]
  obtain ⟨hdepth, i, hi, -⟩ | ⟨hdepth, herr⟩ := decodeApply_cases (depthField w) op (chField w)
  · exact ⟨fun _ => ⟨hr, .inr ⟨ho, hdepth⟩⟩, fun _ => ⟨i, hi⟩⟩
  · simp [herr, h5, hdepth]

/-- Settles O3: decoder and table accept the words with the same fields. -/
theorem decoderAcceptsExactlyTheTableRows : Obligations.DecoderAcceptsExactlyTheTableRows :=
  fun w => (decode_ok_iff w).trans (opcodeTable_match w).symm

/-- Every two rows of the table differ in a bit that both fix. -/
theorem opcodeTable_pairwise_apart : opcodeTable.Pairwise (fun r q => r.apart q = true) := by decide

/-- Settles O4: rows that differ in a fixed bit have no word in common. -/
theorem opcodeRowsNeverOverlap : Obligations.OpcodeRowsNeverOverlap :=
  ⟨rfl, opcodeTable_pairwise_apart.imp OpcodeRow.apart_sound⟩

/-- Settles O5: the decoder evaluated on each word. -/
theorem specWordsDecodeAsWritten : Obligations.SpecWordsDecodeAsWritten :=
  ⟨rfl, rfl, rfl, rfl, rfl, rfl, rfl, rfl, rfl, rfl⟩

end Sys2Proof

namespace Sys2Proof.Machine

/-! ### Illegal words and ignored fields (30_encoding R88, R90) -/

/-- The end of a command is all that a raised condition changes (60_exceptions R187). -/
theorem endsWith_endCommand (s : State) (c : Code) : EndsWith (.next (s.endCommand c)) s c :=
  ⟨_, rfl, rfl, rfl, rfl, rfl, rfl, rfl, rfl, rfl, rfl⟩

/-- Settles O7: the decoder rejects the word, and a rejected word only raises its condition. -/
theorem illegalWordRaisesIllegalCommand : Obligations.IllegalWordRaisesIllegalCommand := by
  intro s w rest hoffer hill
  have hdec : decode w = .error .illegalCommand := decode_illegal hill
  refine ⟨hdec, rfl, ?_⟩
  rw [hoffer.step_eq, runCommand_of_illegal hdec]
  exact endsWith_endCommand ((s.take rest).acceptCommand w) .illegalCommand

/-- A depth 24 command looks at a valid channel in its transform only. -/
theorem applyCommand_depth24_channel {op : Operation} {ch ch' : Nat} (T : Nat → Nat → Memory → Option Memory)
    (s : State) (h : ch < 3) (h' : ch' < 3) : applyCommand 24 op ch T s = applyCommand 24 op ch' T s := by
  unfold applyCommand
  rw [operandCondition_depth24_none op h, operandCondition_depth24_none op h']

/-- A depth 24 command rejects the other channels, whatever its operation (41_unpack_dispatch R127). -/
theorem applyCommand_depth24_invalidChannel (op : Operation) {ch : Nat} (T : Nat → Nat → Memory → Option Memory)
    (s : State) (h : 3 ≤ ch) : EndsWith (applyCommand 24 op ch T s) s .invalidChannel := by
  have hcond : operandCondition 24 op ch = some .invalidChannel := by
    rw [operandCondition_depth24, if_neg (by omega)]
  rw [applyCommand_condition hcond]
  exact endsWith_endCommand s .invalidChannel

/-- Settles O24: INSPECT's meaning names neither field, and the three transforms do not name the channel. -/
theorem ignoredFieldsDoNotMatter : Obligations.IgnoredFieldsDoNotMatter := by
  refine ⟨fun _ _ _ _ _ => rfl, fun s ch ch' h h' => ?_, fun s ch h => ?_⟩
  · exact ⟨applyCommand_depth24_channel grayWalk24 s h h', applyCommand_depth24_channel (floodWalk24 0xFF#8) s h h',
      applyCommand_depth24_channel (floodWalk24 0x00#8) s h h'⟩
  · exact ⟨applyCommand_depth24_invalidChannel .gray grayWalk24 s h,
      applyCommand_depth24_invalidChannel .white (floodWalk24 0xFF#8) s h,
      applyCommand_depth24_invalidChannel .black (floodWalk24 0x00#8) s h⟩

end Sys2Proof.Machine

namespace Sys2Proof.Machine

/-! ### INSPECT loads the header (20_memory R53, R59, 40_header_inspect R110) -/

/-- The little-endian value of the two bytes at `a`. -/
def leValue2 (b : Nat → Byte) (a : Nat) : Nat := (b a).toNat + 2 ^ 8 * (b (a + 1)).toNat

/-- The little-endian value of the four bytes at `a`. -/
def leValue4 (b : Nat → Byte) (a : Nat) : Nat :=
  (b a).toNat + 2 ^ 8 * (b (a + 1)).toNat + 2 ^ 16 * (b (a + 2)).toNat + 2 ^ 24 * (b (a + 3)).toNat

theorem leValue2_lt (b : Nat → Byte) (a : Nat) : leValue2 b a < 2 ^ 16 := by
  have h0 := (b a).isLt
  have h1 := (b (a + 1)).isLt
  unfold leValue2
  omega

/-- The header that the named bytes hold. -/
def headerOf (b : Nat → Byte) : Header :=
  ⟨leValue4 b ofsSize, leValue4 b ofsOff, leValue4 b ofsWidth, leValue4 b ofsHeight, leValue2 b ofsBpp⟩

theorem Memory.readLE_four_eq_leValue4 {m : Memory} {b : Nat → Byte} {written : List Nat} {a : Nat}
    (h : ∀ c ∈ written, m.read c = some (b c)) (ha : [a, a + 1, a + 2, a + 3] ⊆ written) :
    m.readLE a 4 = some (leValue4 b a) := by
  have byte {c : Nat} (hc : c ∈ [a, a + 1, a + 2, a + 3]) : m.read c = some (b c) := h c (ha hc)
  exact (headerFieldsAreLittleEndian.1 m a _ _ _ _ (byte (by simp)) (byte (by simp)) (byte (by simp))
    (byte (by simp))).1

theorem Memory.readLE_two_eq_leValue2 {m : Memory} {b : Nat → Byte} {written : List Nat} {a : Nat}
    (h : ∀ c ∈ written, m.read c = some (b c)) (ha : [a, a + 1] ⊆ written) :
    m.readLE a 2 = some (leValue2 b a) :=
  readLE_two (h a (ha (by simp))) (h (a + 1) (ha (by simp)))

/-- Each field is read from its own bytes, and the list names the bytes of all five. -/
theorem readHeader_eq_headerOf {m : Memory} {b : Nat → Byte}
    (h : ∀ a ∈ [2, 3, 4, 5, 10, 11, 12, 13, 18, 19, 20, 21, 22, 23, 24, 25, 28, 29], m.read a = some (b a)) :
    readHeader m = some (headerOf b) := by
  have hsize : m.readLE ofsSize 4 = some (leValue4 b ofsSize) := Memory.readLE_four_eq_leValue4 h (by decide)
  have hoff : readOffset m = some (leValue4 b ofsOff) := Memory.readLE_four_eq_leValue4 h (by decide)
  have hwidth : m.readLE ofsWidth 4 = some (leValue4 b ofsWidth) := Memory.readLE_four_eq_leValue4 h (by decide)
  have hheight : m.readLE ofsHeight 4 = some (leValue4 b ofsHeight) := Memory.readLE_four_eq_leValue4 h (by decide)
  have hbpp : m.readLE ofsBpp 2 = some (leValue2 b ofsBpp) := Memory.readLE_two_eq_leValue2 h (by decide)
  simp only [readHeader, hsize, hoff, hwidth, hheight, hbpp, headerOf]

/-- H_BPP's 16 bits hold the whole field, so zero-extending them loses nothing (40_header_inspect R113). -/
theorem setWidth_leValue2 (b : Nat → Byte) (a : Nat) :
    BitVec.setWidth 32 (BitVec.ofNat 16 (leValue2 b a)) = BitVec.ofNat 32 (leValue2 b a) :=
  BitVec.setWidth_ofNat_of_le_of_lt (by decide) (leValue2_lt b a)

/-- Settles O22: INSPECT ends OK with the header that the 18 bytes hold, and H_BPP's upper half is zero. -/
theorem inspectLoadsTheFiveHeaderFields : Obligations.InspectLoadsTheFiveHeaderFields := by
  intro s ch depth b hlen hcap hbytes
  calc exec (.inspect ch depth) s
      = .next ((s.loadHeader (headerOf b)).endCommand .ok) :=
        execInspect_ready hlen hcap (readHeader_eq_headerOf hbytes) ch depth
    _ = _ := by
        simp only [State.loadHeader, headerOf, setWidth_leValue2]
        rfl

end Sys2Proof.Machine

namespace Sys2Proof.Machine

/-! ### Where a transform does nothing, and what it reaches (41_unpack_dispatch R130, R131) -/

/-- An APPLY command whose transform gives back the buffer it got ends OK and does nothing else. -/
theorem applyCommand_unchanged {depth : Nat} {op : Operation} {ch : Nat} {T : Nat → Nat → Memory → Option Memory}
    {s : State} {off : Nat} (hc : operandCondition depth op ch = none) (hs : s.OffsetReady off)
    (hT : T off s.len.toNat s.buf = some s.buf) : EndsWith (applyCommand depth op ch T s) s .ok := by
  rw [applyCommand_ready hc hs hT]
  exact endsWith_endCommand s .ok

/-- Settles O34: every transform is a scan, and a scan that starts at or beyond LEN makes no visit. -/
theorem offsetBeyondTheEndIsANoOp : Obligations.OffsetBeyondTheEndIsANoOp := by
  intro s ch off hs
  refine ⟨fun hch hoff => ?_, fun hch hoff => ?_, fun hch hoff => ?_⟩
  · exact ⟨applyCommand_unchanged (operandCondition_depth4_none (.inl rfl) hch) hs (scan_of_le hoff),
      applyCommand_unchanged (operandCondition_depth4_none (.inr rfl) hch) hs (scan_of_le hoff)⟩
  · have unchanged (op) {T} (hT : T off s.len.toNat s.buf = some s.buf) :
        EndsWith (applyCommand 24 op ch T s) s .ok :=
      applyCommand_unchanged (operandCondition_depth24_none op hch) hs hT
    exact ⟨unchanged .gray (scan_of_le hoff), unchanged .white (scan_of_le hoff), unchanged .black (scan_of_le hoff)⟩
  · exact ⟨applyCommand_unchanged (operandCondition_depth24_none .filter hch) hs (scan_of_le hoff),
      applyCommand_unchanged (operandCondition_depth24_none .darken hch) hs (scan_of_le hoff)⟩

/-- Settles O36: of the three ways a command ends, only a transform changes BUF, and it writes nothing outside
`[off, LEN)`. -/
theorem transformsStayInsideThePixelArray : Obligations.TransformsStayInsideThePixelArray := by
  intro i s t a h hchanged
  obtain ⟨_, _, rfl⟩ | ⟨_, _, _, _, _, _, _, rfl⟩ | ⟨_, hT, off, _, ⟨_, _, hoff⟩, hbuf, rfl⟩ := exec_next h
  · exact absurd rfl hchanged
  · exact absurd rfl hchanged
  · exact ⟨off, hoff, not_imp_comm.1 (hT.frame hbuf) hchanged⟩

/-! ### What a command depends on (10_state R28, R35, 41_unpack_dispatch R129, R131) -/

/-- The states agree in what a command may read: BUF, LEN and CAP. -/
structure State.SameInputs (s1 s2 : State) : Prop where
  buf : s1.buf = s2.buf
  len : s1.len = s2.len
  cap : s1.cap = s2.cap

/-- The outcomes agree in what a command may write: BUF and STATUS, the H_* registers where `loads` holds and the
command ended OK, and the name of a refusal. -/
inductive SameOutcome (loads : Prop) :
    Host.Outcome State Fault Refusal → Host.Outcome State Fault Refusal → Prop where
  | next {t1 t2 : State} (buf : t2.buf = t1.buf) (status : t2.status = t1.status)
      (header : loads → t1.status.code = .ok → t2.hSize = t1.hSize ∧ t2.hOff = t1.hOff ∧ t2.hWidth = t1.hWidth ∧
        t2.hHeight = t1.hHeight ∧ t2.hBpp = t1.hBpp) : SameOutcome loads (.next t1) (.next t2)
  | refused (r : Refusal) : SameOutcome loads (.refused r) (.refused r)

section
variable {loads : Prop} {s1 s2 : State} (hs : s1.SameInputs s2)
include hs

theorem raise_sameOutcome {c : Code} (hc : c ≠ .ok) : SameOutcome loads (raise c s1) (raise c s2) :=
  .next hs.buf.symm rfl fun _ hok => absurd hok hc

theorem withLength_sameOutcome {body1 body2 : Host.Outcome State Fault Refusal}
    (hbody : SameOutcome loads body1 body2) : SameOutcome loads (withLength s1 body1) (withLength s2 body2) := by
  unfold withLength withinCapacity
  rw [hs.len, hs.cap]
  split
  · exact raise_sameOutcome hs (by decide)
  · split
    · exact .refused _
    · exact hbody

/-- An APPLY command takes the offset, LEN and the buffer, and no register. -/
theorem applyCommand_sameOutcome (hloads : ¬loads) (depth : Nat) (op : Operation) (ch : Nat)
    (T : Nat → Nat → Memory → Option Memory) :
    SameOutcome loads (applyCommand depth op ch T s1) (applyCommand depth op ch T s2) := by
  unfold applyCommand
  split
  · rename_i hc
    exact raise_sameOutcome hs (operandCondition_ne_ok hc)
  · refine withLength_sameOutcome hs ?_
    rw [hs.buf, hs.len]
    split
    · exact .refused _
    · split
      · exact .refused _
      · exact .next rfl rfl fun h => absurd h hloads

/-- INSPECT takes the header from the buffer, and loads all five registers from it. -/
theorem execInspect_sameOutcome (ch depth : Nat) :
    SameOutcome loads (execInspect ch depth s1) (execInspect ch depth s2) := by
  refine withLength_sameOutcome hs ?_
  rw [hs.buf]
  split
  · exact .refused _
  · exact .next hs.buf.symm rfl fun _ _ => ⟨rfl, rfl, rfl, rfl, rfl⟩

theorem exec_sameOutcome (i : Instr) :
    SameOutcome (∃ ch depth, i = .inspect ch depth) (exec i s1) (exec i s2) := by
  by_cases hi : ∃ ch depth, i = .inspect ch depth
  · obtain ⟨ch, depth, rfl⟩ := hi
    exact execInspect_sameOutcome hs ch depth
  · have happly : ∀ ch depth, i ≠ .inspect ch depth := fun ch depth heq => hi ⟨ch, depth, heq⟩
    rw [exec_apply happly, exec_apply happly]
    exact applyCommand_sameOutcome hs hi _ _ _ _

end

/-- Settles O37: the two outcomes agree in all that a command may write. -/
theorem outcomeDependsOnBufferLenAndCommandAlone : Obligations.OutcomeDependsOnBufferLenAndCommandAlone := by
  intro i s1 s2 hbuf hlen hcap
  have hsame := exec_sameOutcome ⟨hbuf, hlen, hcap⟩ i
  generalize exec i s1 = o1, exec i s2 = o2 at hsame ⊢
  cases hsame with
  | next hbuf' hstatus hheader =>
    exact ⟨fun | _, rfl => ⟨_, rfl, hbuf', hstatus, hheader⟩, fun _ h => nomatch h⟩
  | refused r => exact ⟨fun _ h => (nomatch h), fun _ h => h⟩

/-! ### Pixel formats (41_unpack_dispatch R120 to R123) -/

theorem toNat_unpack4 (b : Byte) : (unpack4 b).1.toNat = b.toNat % 16 ∧ (unpack4 b).2.toNat = b.toNat / 16 := by
  have hb := b.isLt
  simp only [unpack4, BitVec.extractLsb'_toNat, Nat.shiftRight_eq_div_pow]
  omega

theorem toNat_pack4 (n0 n1 : BitVec 4) : (pack4 n0 n1).toNat = n1.toNat * 16 + n0.toNat := by
  rw [pack4, BitVec.toNat_append, ← Nat.shiftLeft_add_eq_or_of_lt n0.isLt, Nat.shiftLeft_eq]

/-- Settles O25: by the values of both functions as numbers. -/
theorem nibblesUnpackAndPack : Obligations.NibblesUnpackAndPack := by
  refine ⟨fun b => ?_, fun n0 n1 => ?_⟩
  · obtain ⟨hlow, hhigh⟩ := toNat_unpack4 b
    refine ⟨hlow, hhigh, BitVec.eq_of_toNat_eq ?_⟩
    rw [toNat_pack4]
    omega
  · obtain ⟨hlow, hhigh⟩ := toNat_unpack4 (pack4 n0 n1)
    have hpack := toNat_pack4 n0 n1
    have h0 := n0.isLt
    refine ⟨hpack, Prod.ext (BitVec.eq_of_toNat_eq ?_) (BitVec.eq_of_toNat_eq ?_)⟩
    · show (unpack4 (pack4 n0 n1)).1.toNat = n0.toNat
      omega
    · show (unpack4 (pack4 n0 n1)).2.toNat = n1.toNat
      omega

theorem toNat_extract4 (b : Byte) (ch : Nat) : (extract4 b ch).toNat = b.toNat / 2 ^ (4 * ch) % 16 := by
  rw [extract4, BitVec.toNat_setWidth, BitVec.toNat_ushiftRight, Nat.shiftRight_eq_div_pow]

/-- From the third nibble on, the shift leaves no bit of the byte. -/
theorem extract4_eq_zero (b : Byte) {ch : Nat} (h : 2 ≤ ch) : extract4 b ch = 0#4 := by
  have hb : b.toNat < 2 ^ (4 * ch) :=
    Nat.lt_of_lt_of_le b.isLt (Nat.pow_le_pow_right Nat.two_pos (by omega))
  refine BitVec.eq_of_toNat_eq ?_
  rw [toNat_extract4, Nat.div_eq_of_lt hb]
  rfl

/-- Settles O26: the nibbles are the byte's remainder and quotient by 16; extract24 and pack24 are the fields of the
pixel. -/
theorem channelExtractSelectsTheNamedPart : Obligations.ChannelExtractSelectsTheNamedPart := by
  refine ⟨fun b => ?_, fun _ _ _ => ⟨rfl, rfl, rfl, rfl⟩⟩
  obtain ⟨hlow, hhigh⟩ := toNat_unpack4 b
  have hb := b.isLt
  refine ⟨BitVec.eq_of_toNat_eq ?_, BitVec.eq_of_toNat_eq ?_, extract4_eq_zero b (by decide),
    extract4_eq_zero b (by decide)⟩
  · rw [toNat_extract4]
    omega
  · rw [toNat_extract4]
    omega

end Sys2Proof.Machine

namespace Sys2Proof.Machine

/-! ### The nibble mask and what it does to the two nibbles (42_depth4 R140 to R142) -/

/-- Truncating the shift at 16 bits first loses nothing that the truncation to 8 bits would keep. -/
theorem toNat_mask4 (ch : Nat) : (mask4 ch).toNat = 15 * 2 ^ (4 * ch) % 256 := by
  rw [mask4, BitVec.toNat_setWidth, BitVec.toNat_shiftLeft, Nat.shiftLeft_eq]
  exact Nat.mod_mod_of_dvd _ (by decide)

/-- Settles O27: the four masks evaluated, and the value of the mask at any channel. -/
theorem nibbleMaskOfEachChannel : Obligations.NibbleMaskOfEachChannel :=
  ⟨rfl, rfl, rfl, rfl, fun ch _ => toNat_mask4 ch⟩

theorem pack4_and_pack4 (a0 a1 b0 b1 : BitVec 4) : pack4 a0 a1 &&& pack4 b0 b1 = pack4 (a0 &&& b0) (a1 &&& b1) :=
  BitVec.and_append

theorem pack4_or_pack4 (a0 a1 b0 b1 : BitVec 4) : pack4 a0 a1 ||| pack4 b0 b1 = pack4 (a0 ||| b0) (a1 ||| b1) :=
  BitVec.or_append

/-- Blue selects the low nibble. -/
theorem mask4_blue : mask4 0 = pack4 (BitVec.allOnes 4) 0#4 ∧ ~~~ mask4 0 = pack4 0#4 (BitVec.allOnes 4) := ⟨rfl, rfl⟩

/-- Green selects the high nibble. -/
theorem mask4_green : mask4 1 = pack4 0#4 (BitVec.allOnes 4) ∧ ~~~ mask4 1 = pack4 (BitVec.allOnes 4) 0#4 := ⟨rfl, rfl⟩

/-- Red and gray select no bit. -/
theorem mask4_red_gray {ch : Nat} (h : ch = 2 ∨ ch = 3) : mask4 ch = 0#8 := by
  obtain ⟨-, -, hred, hgray, -⟩ := nibbleMaskOfEachChannel
  rcases h with rfl | rfl
  · exact hred
  · exact hgray

theorem filterNibble_blue (n0 n1 : BitVec 4) : filterNibble 0 (pack4 n0 n1) = pack4 0 n1 := by
  rw [filterNibble, mask4_blue.2, pack4_and_pack4, BitVec.and_zero, BitVec.and_allOnes]
  rfl

theorem filterNibble_green (n0 n1 : BitVec 4) : filterNibble 1 (pack4 n0 n1) = pack4 n0 0 := by
  rw [filterNibble, mask4_green.2, pack4_and_pack4, BitVec.and_zero, BitVec.and_allOnes]
  rfl

theorem darkenNibble_blue (n0 n1 : BitVec 4) : darkenNibble 0 (pack4 n0 n1) = pack4 15 n1 := by
  rw [darkenNibble, mask4_blue.1, pack4_or_pack4, BitVec.or_zero, BitVec.or_allOnes]
  rfl

theorem darkenNibble_green (n0 n1 : BitVec 4) : darkenNibble 1 (pack4 n0 n1) = pack4 n0 15 := by
  rw [darkenNibble, mask4_green.1, pack4_or_pack4, BitVec.or_zero, BitVec.or_allOnes]
  rfl

theorem filterNibble_red_gray {ch : Nat} (h : ch = 2 ∨ ch = 3) (b : Byte) : filterNibble ch b = b := by
  rw [filterNibble, mask4_red_gray h, BitVec.not_zero, BitVec.and_allOnes]

theorem darkenNibble_red_gray {ch : Nat} (h : ch = 2 ∨ ch = 3) (b : Byte) : darkenNibble ch b = b := by
  rw [darkenNibble, mask4_red_gray h, BitVec.or_zero]

/-! ### The closed form of FILTER.4 and DARKEN.4 (42_depth4 R144) -/

/-- A depth 4 command that modifies the bytes one by one, at a channel and an operation of depth 4. -/
theorem applyCommand_modify {op : Operation} (hop : op = .filter ∨ op = .darken) (f : Byte → Byte) {s : State}
    {ch off : Nat} (hch : ch < 4) (hs : s.OffsetReady off) (hw : s.buf.Written off s.len.toNat) :
    ∃ buf, applyCommand 4 op ch (scan (visitModify f) 1) s = .next (s.completedWith buf) ∧
      ∀ j, buf.read j = if off ≤ j ∧ j < s.len.toNat then (s.buf.read j).map f else s.buf.read j := by
  obtain ⟨buf, hbuf⟩ := scan_modify_completes f hw
  exact ⟨buf, applyCommand_ready (operandCondition_depth4_none hop hch) hs hbuf, scan_modify_read hbuf⟩

/-- Settles O29: both commands modify the bytes one by one, and the nibbles are those the mask selects. -/
theorem depthFourClosedForm : Obligations.DepthFourClosedForm := by
  refine ⟨fun s ch off hch hs hw => ?_, fun n0 n1 => ?_⟩
  · exact ⟨applyCommand_modify (.inl rfl) (filterNibble ch) hch hs hw,
      applyCommand_modify (.inr rfl) (darkenNibble ch) hch hs hw⟩
  · exact ⟨filterNibble_blue n0 n1, filterNibble_green n0 n1, darkenNibble_blue n0 n1, darkenNibble_green n0 n1,
      fun _ h => ⟨filterNibble_red_gray h _, darkenNibble_red_gray h _⟩⟩

end Sys2Proof.Machine

namespace Sys2Proof.Machine

/-! ### Two transforms in turn (42_depth4 R141, R142, 43_depth24_channel R151, R152, 44_depth24_whole R161, R162) -/

/-- The transform gives every byte at an address of `P` the value `f` of its reading, and leaves every other byte. -/
def ActsOn (T : Memory → Option Memory) (P : Nat → Prop) [DecidablePred P] (f : Option Byte → Option Byte) : Prop :=
  ∀ m m', T m = some m' → ∀ j, m'.read j = if P j then f (m.read j) else m.read j

theorem filterWalk4_actsOn (ch off len : Nat) :
    ActsOn (filterWalk4 ch off len) (fun j => off ≤ j ∧ j < len) (Option.map (filterNibble ch)) :=
  fun _ _ => scan_modify_read

theorem darkenWalk4_actsOn (ch off len : Nat) :
    ActsOn (darkenWalk4 ch off len) (fun j => off ≤ j ∧ j < len) (Option.map (darkenNibble ch)) :=
  fun _ _ => scan_modify_read

theorem filterWalk24_actsOn {ch : Nat} (hch : ch < 3) (off len : Nat) :
    ActsOn (filterWalk24 ch off len) (fun j => off ≤ j ∧ j < len ∧ (j - off) % 3 = ch) (fun _ => some 0#8) :=
  fun _ _ => filterWalk24_read hch

theorem darkenWalk24_actsOn {ch : Nat} (hch : ch < 3) (off len : Nat) :
    ActsOn (darkenWalk24 ch off len) (fun j => off ≤ j ∧ j < len ∧ ch < j - off ∧ (j - off) % 3 ≠ ch)
      (fun _ => some 0#8) :=
  fun _ _ => darkenWalk24_read hch

theorem floodWalk24_actsOn (v : Byte) (off len : Nat) :
    ActsOn (floodWalk24 v off len) (fun j => off ≤ j ∧ j < len) (fun _ => some v) :=
  fun _ _ => floodWalk24_read

/-- A transform that overwrites what another did gives, after it, the bytes it gives alone. -/
theorem ActsOn.read_absorb {T T' : Memory → Option Memory} {P : Nat → Prop} [DecidablePred P]
    {f f' : Option Byte → Option Byte} (hT : ActsOn T P f) (hT' : ActsOn T' P f') (hff : ∀ r, f' (f r) = f' r)
    {m m1 m2 n : Memory} (h1 : T m = some m1) (h2 : T' m = some m2) (hn : T' m1 = some n) (j : Nat) :
    n.read j = m2.read j := by
  rw [hT' _ _ hn, hT _ _ h1, hT' _ _ h2]
  by_cases hj : P j
  · simp only [if_pos hj, hff]
  · simp only [if_neg hj]

/-! ### What lets the next command run as the first one did -/

/-- A transform of `[off, LEN)` can run, and leaves the offset it read: BUF is canonical, the offset is read and lies
above its own field, and the bytes of the pixel array are written. -/
structure State.PixelsReady (s : State) (off : Nat) : Prop where
  canonical : s.buf.wf = true
  offsetReady : s.OffsetReady off
  aboveField : 14 ≤ off
  written : s.buf.Written off s.len.toNat

theorem IsTransform.wf {T : Nat → Nat → Memory → Option Memory} (hT : IsTransform T) {off len : Nat}
    {m m' : Memory} (hm : m.wf = true) (h : T off len m = some m') : m'.wf = true :=
  hT.keeps (P := fun m => m.wf = true) (fun _ a v _ => Memory.wf_write a v) hm h

theorem IsTransform.written {T : Nat → Nat → Memory → Option Memory} (hT : IsTransform T) {off len lo hi : Nat}
    {m m' : Memory} (hm : m.Written lo hi) (h : T off len m = some m') : m'.Written lo hi :=
  hT.keeps (P := fun m => m.Written lo hi) (fun _ a v _ hw c h1 h2 => Memory.isSome_read_write a v (hw c h1 h2)) hm h

theorem IsTransform.readOffset_eq {T : Nat → Nat → Memory → Option Memory} (hT : IsTransform T) {off len : Nat}
    (h14 : 14 ≤ off) {m m' : Memory} (h : T off len m = some m') : readOffset m' = readOffset m :=
  readOffset_congr fun _ _ hc => hT.frame h (by omega)

theorem State.PixelsReady.completedWith {s : State} {off : Nat} (hs : s.PixelsReady off)
    {T : Nat → Nat → Memory → Option Memory} (hT : IsTransform T) {buf : Memory}
    (h : T off s.len.toNat s.buf = some buf) : (s.completedWith buf).PixelsReady off := by
  obtain ⟨hlen, hcap, hoff⟩ := hs.offsetReady
  exact ⟨hT.wf hs.canonical h, ⟨hlen, hcap, (hT.readOffset_eq hs.aboveField h).trans hoff⟩, hs.aboveField,
    hT.written hs.written h⟩

/-- A command whose transform overwrites what another's did ends, after it, in the state it ends in alone. -/
theorem applyCommand_absorb {s : State} {off : Nat} (hs : s.PixelsReady off) {depth ch : Nat} {op : Operation}
    {T T' : Nat → Nat → Memory → Option Memory} (hT : IsTransform T) (hT' : IsTransform T')
    (hc : operandCondition depth op ch = none) {P : Nat → Prop} [DecidablePred P] {f f' : Option Byte → Option Byte}
    (hact : ActsOn (T off s.len.toNat) P f) (hact' : ActsOn (T' off s.len.toNat) P f') (hff : ∀ r, f' (f r) = f' r)
    {buf buf' : Memory} (h : T off s.len.toNat s.buf = some buf) (h' : T' off s.len.toNat s.buf = some buf') :
    applyCommand depth op ch T' (s.completedWith buf) = .next (s.completedWith buf') := by
  have hnext := hs.completedWith hT h
  obtain ⟨n, hn⟩ := hT'.completes hnext.written
  have heq : n = buf' := Memory.eq_of_read_eq (hT'.wf hnext.canonical hn) (hT'.wf hs.canonical h')
    (hact.read_absorb hact' hff h h' hn)
  exact applyCommand_ready hc hnext.offsetReady (heq ▸ hn)

/-- A command whose transform overwrites its own result leaves the state it gave as it is. -/
theorem applyCommand_idempotent {s : State} {off : Nat} (hs : s.PixelsReady off) {depth ch : Nat} {op : Operation}
    {T : Nat → Nat → Memory → Option Memory} (hT : IsTransform T) (hc : operandCondition depth op ch = none)
    {P : Nat → Prop} [DecidablePred P] {f : Option Byte → Option Byte} (hact : ActsOn (T off s.len.toNat) P f)
    (hff : ∀ r, f (f r) = f r) :
    ∃ t, applyCommand depth op ch T s = .next t ∧ applyCommand depth op ch T t = .next t := by
  obtain ⟨buf, hbuf⟩ := hT.completes hs.written
  exact ⟨s.completedWith buf, applyCommand_ready hc hs.offsetReady hbuf,
    applyCommand_absorb hs hT hT hc hact hact hff hbuf hbuf⟩

/-! ### Which nibble operation overwrites which (42_depth4 R141, R142) -/

theorem filterNibble_filterNibble (ch : Nat) (b : Byte) : filterNibble ch (filterNibble ch b) = filterNibble ch b := by
  simp only [filterNibble, BitVec.and_assoc, BitVec.and_self]

theorem darkenNibble_darkenNibble (ch : Nat) (b : Byte) : darkenNibble ch (darkenNibble ch b) = darkenNibble ch b := by
  simp only [darkenNibble, BitVec.or_assoc, BitVec.or_self]

theorem filterNibble_darkenNibble (ch : Nat) (b : Byte) : filterNibble ch (darkenNibble ch b) = filterNibble ch b := by
  ext k hk
  simp [filterNibble, darkenNibble, Bool.and_or_distrib_right]

theorem darkenNibble_filterNibble (ch : Nat) (b : Byte) : darkenNibble ch (filterNibble ch b) = darkenNibble ch b := by
  ext k hk
  simp [filterNibble, darkenNibble, Bool.or_and_distrib_right]

/-- An operation on bytes that overwrites another does so on readings. -/
theorem map_map_absorb {f g : Byte → Byte} (h : ∀ b, g (f b) = g b) (r : Option Byte) :
    (r.map f).map g = r.map g := by
  rw [Option.map_map, show g ∘ f = g from funext h]

/-- Settles O39: each of the six gives a byte it writes a value that it leaves as it is. -/
theorem otherTransformsAreIdempotent : Obligations.OtherTransformsAreIdempotent := by
  intro s ch off hwf hoff h14 hw
  have hs : s.PixelsReady off := ⟨hwf, hoff, h14, hw⟩
  refine ⟨fun hch => ?_, fun hch => ?_⟩
  · exact ⟨applyCommand_idempotent hs (.filter4 ch) (operandCondition_depth4_none (.inl rfl) hch)
        (filterWalk4_actsOn ch off _) (map_map_absorb (filterNibble_filterNibble ch)),
      applyCommand_idempotent hs (.darken4 ch) (operandCondition_depth4_none (.inr rfl) hch)
        (darkenWalk4_actsOn ch off _) (map_map_absorb (darkenNibble_darkenNibble ch))⟩
  · have hc (op) := operandCondition_depth24_none op hch
    exact ⟨applyCommand_idempotent hs (.filter24 ch hch) (hc .filter) (filterWalk24_actsOn hch off _) fun _ => rfl,
      applyCommand_idempotent hs (.darken24 ch hch) (hc .darken) (darkenWalk24_actsOn hch off _) fun _ => rfl,
      applyCommand_idempotent hs (.flood24 0xFF#8) (hc .white) (floodWalk24_actsOn _ off _) fun _ => rfl,
      applyCommand_idempotent hs (.flood24 0x00#8) (hc .black) (floodWalk24_actsOn _ off _) fun _ => rfl⟩

/-- Settles O41: each of the two nibble operations overwrites the other. -/
theorem laterDepthFourCommandWins : Obligations.LaterDepthFourCommandWins := by
  intro s ch off hch hwf hoff h14 hw
  have hs : s.PixelsReady off := ⟨hwf, hoff, h14, hw⟩
  have hT : IsTransform (filterWalk4 ch) := .filter4 ch
  have hT' : IsTransform (darkenWalk4 ch) := .darken4 ch
  have hc : operandCondition 4 .filter ch = none := operandCondition_depth4_none (.inl rfl) hch
  have hc' : operandCondition 4 .darken ch = none := operandCondition_depth4_none (.inr rfl) hch
  obtain ⟨f, hf⟩ := hT.completes hw
  obtain ⟨d, hd⟩ := hT'.completes hw
  have hact := filterWalk4_actsOn ch off s.len.toNat
  have hact' := darkenWalk4_actsOn ch off s.len.toNat
  exact ⟨s.completedWith f, s.completedWith d, applyCommand_ready hc hoff hf, applyCommand_ready hc' hoff hd,
    applyCommand_absorb hs hT hT' hc' hact hact' (map_map_absorb (darkenNibble_filterNibble ch)) hf hd,
    applyCommand_absorb hs hT' hT hc hact' hact (map_map_absorb (filterNibble_darkenNibble ch)) hd hf⟩

end Sys2Proof.Machine

namespace Sys2Proof.Machine

/-! ### FILTER.24 and DARKEN.24 (43_depth24_channel R151 to R154) -/

/-- FILTER.24 reads no byte of the pixel array (43_depth24_channel R151), so its walk always completes. -/
theorem filterWalk24_completes (ch off len : Nat) (m : Memory) : ∃ m', filterWalk24 ch off len m = some m' :=
  scan_fill_completes 0#8 (by decide) _ len m

/-- FILTER.24 at a channel of depth 24 ends OK with the buffer its walk gives. -/
theorem exec_filter24_ready {s : State} {ch off : Nat} (hch : ch < 3) (hs : s.OffsetReady off) {buf : Memory}
    (h : filterWalk24 ch off s.len.toNat s.buf = some buf) : exec (.filter24 ch) s = .next (s.completedWith buf) :=
  applyCommand_ready (operandCondition_depth24_none .filter hch) hs h

/-- Settles O30: the walk of FILTER.24 completes on any buffer and zeroes the bytes of the channel's phase. -/
theorem filterTwentyFourClosedForm : Obligations.FilterTwentyFourClosedForm := by
  intro s ch off hch hs
  obtain ⟨buf, hbuf⟩ := filterWalk24_completes ch off s.len.toNat s.buf
  exact ⟨buf, exec_filter24_ready hch hs hbuf, filterWalk24_read hch hbuf⟩

/-- Settles O31: the walk of DARKEN.24 completes on any buffer and zeroes the bytes of the other two phases, from the
first visited byte on. -/
theorem darkenTwentyFourClosedForm : Obligations.DarkenTwentyFourClosedForm := by
  intro s ch off hch hs
  obtain ⟨buf, hbuf⟩ := darkenWalk24_completes ch off s.len.toNat s.buf
  exact ⟨buf, applyCommand_ready (operandCondition_depth24_none .darken hch) hs hbuf, darkenWalk24_read hch hbuf⟩

/-! ### The three filters together (43_depth24_channel R151) -/

/-- A transform from an offset above the offset field leaves that offset to be read by the next command, whether or not
the pixel array is written. -/
theorem IsTransform.offsetReady_completedWith {T : Nat → Nat → Memory → Option Memory} (hT : IsTransform T) {s : State}
    {off : Nat} (hs : s.OffsetReady off) (h14 : 14 ≤ off) {buf : Memory} (h : T off s.len.toNat s.buf = some buf) :
    (s.completedWith buf).OffsetReady off := by
  obtain ⟨hlen, hcap, hoff⟩ := hs
  exact ⟨hlen, hcap, (hT.readOffset_eq h14 h).trans hoff⟩

/-- Every byte of the pixel array is of one of the three phases, so the three filters zero them all. -/
theorem filterWalk24_blue_green_red_read {off len : Nat} {m m0 m1 m2 n : Memory}
    (h0 : filterWalk24 0 off len m = some m0) (h1 : filterWalk24 1 off len m0 = some m1)
    (h2 : filterWalk24 2 off len m1 = some m2) (hn : floodWalk24 0x00#8 off len m = some n) (j : Nat) :
    m2.read j = n.read j := by
  rw [filterWalk24_read (by decide) h2, filterWalk24_read (by decide) h1, filterWalk24_read (by decide) h0,
    floodWalk24_read hn]
  have hphase : (j - off) % 3 = 0 ∨ (j - off) % 3 = 1 ∨ (j - off) % 3 = 2 := by omega
  rcases hphase with h | h | h <;> simp [h]

/-- Settles O40: each filter leaves the offset as it was, and the last buffer, canonical like the flooded one, reads
like it at every address. -/
theorem threeFiltersEqualOneBlack : Obligations.ThreeFiltersEqualOneBlack := by
  intro s off hwf hs h14
  have blue : IsTransform (filterWalk24 0) := .filter24 0 (by decide)
  have green : IsTransform (filterWalk24 1) := .filter24 1 (by decide)
  have red : IsTransform (filterWalk24 2) := .filter24 2 (by decide)
  obtain ⟨b0, h0⟩ := filterWalk24_completes 0 off s.len.toNat s.buf
  obtain ⟨b1, h1⟩ := filterWalk24_completes 1 off s.len.toNat b0
  obtain ⟨b2, h2⟩ := filterWalk24_completes 2 off s.len.toNat b1
  obtain ⟨n, hn⟩ := scan_fill_completes 0x00#8 Nat.one_pos off s.len.toNat s.buf
  have hs0 : (s.completedWith b0).OffsetReady off := blue.offsetReady_completedWith hs h14 h0
  have hs1 : (s.completedWith b1).OffsetReady off := green.offsetReady_completedWith hs0 h14 h1
  have heq : n = b2 := Memory.eq_of_read_eq ((IsTransform.flood24 0x00#8).wf hwf hn)
    (red.wf (green.wf (blue.wf hwf h0) h1) h2) fun j => (filterWalk24_blue_green_red_read h0 h1 h2 hn j).symm
  have hblack : exec (.black24 0) s = .next (s.completedWith n) :=
    applyCommand_ready (operandCondition_depth24_none (ch := 0) .black (by decide)) hs hn
  exact ⟨s.completedWith b0, s.completedWith b1, s.completedWith b2, exec_filter24_ready (by decide) hs h0,
    exec_filter24_ready (by decide) hs0 h1, exec_filter24_ready (by decide) hs1 h2, heq ▸ hblack⟩

end Sys2Proof.Machine

namespace Sys2Proof.Machine

/-! ### The average of a pixel (44_depth24_whole R160, R163) -/

/-- Three bytes add up to at most `3 * 255`. -/
theorem pixelSum_le (p : Pixel) : pixelSum p ≤ 765 := by
  obtain ⟨b, g, r⟩ := p
  have hb := b.isLt
  have hg := g.isLt
  have hr := r.isLt
  simp only [pixelSum]
  omega

/-- A third of the sum fits a byte, so the average is the quotient itself. -/
theorem toNat_pixelAverage (p : Pixel) : (pixelAverage p).toNat = pixelSum p / 3 := by
  have hfits : pixelSum p / 3 < 2 ^ 8 := by
    have := pixelSum_le p
    omega
  rw [pixelAverage, BitVec.toNat_ofNat, Nat.mod_eq_of_lt hfits]

/-- Settles O28: the sum never leaves the range whose third fits a byte. -/
theorem averageIsTheFloorOfTheMean : Obligations.AverageIsTheFloorOfTheMean :=
  fun p => ⟨rfl, pixelSum_le p, toNat_pixelAverage p⟩

/-- A gray pixel is its own average. -/
theorem pixelAverage_gray (v : Byte) : pixelAverage (unpack24 v v v) = v := by
  apply BitVec.eq_of_toNat_eq
  rw [toNat_pixelAverage]
  simp only [pixelSum, unpack24]
  omega

theorem averageAt_of_read {r : Nat → Option Byte} {g : Nat} {b0 b1 b2 : Byte} (h0 : r g = some b0)
    (h1 : r (g + 1) = some b1) (h2 : r (g + 2) = some b2) :
    averageAt r g = some (pixelAverage (unpack24 b0 b1 b2)) := by
  simp only [averageAt, h0, h1, h2]

/-- Three readings that are alike, all without a value or all of one value, average to that reading. -/
theorem averageAt_of_alike {r : Nat → Option Byte} {g : Nat} {v : Option Byte} (h0 : r g = v) (h1 : r (g + 1) = v)
    (h2 : r (g + 2) = v) : averageAt r g = v := by
  cases v with
  | none => simp only [averageAt, h0]
  | some b => rw [averageAt_of_read h0 h1 h2, pixelAverage_gray]

/-! ### GRAY.24 (44_depth24_whole R160, R163, R164) -/

/-- The group of a byte holds it and starts in the pixel array. -/
theorem groupStart_bounds {off j : Nat} (h : off ≤ j) :
    off ≤ groupStart off j ∧ groupStart off j ≤ j ∧ j < groupStart off j + 3 := by
  unfold groupStart
  omega

/-- The three bytes of a group have one group start. -/
theorem groupStart_of_mem {off j c : Nat} (h1 : groupStart off j ≤ c) (h2 : c < groupStart off j + 3) :
    groupStart off c = groupStart off j := by
  unfold groupStart at *
  omega

/-- GRAY.24 leaves the bytes of a whole group alike. -/
theorem grayWalk24_read_group {off len : Nat} {m m' : Memory} (h : grayWalk24 off len m = some m') {j c : Nat}
    (hj : off ≤ j) (hwhole : groupStart off j + 2 < len) (h1 : groupStart off j ≤ c) (h2 : c < groupStart off j + 3) :
    m'.read c = averageAt m.read (groupStart off j) := by
  have hc : off ≤ c := (groupStart_bounds hj).1.trans h1
  have hgroup := groupStart_of_mem h1 h2
  rw [grayWalk24_read h, if_pos ⟨hc, hgroup ▸ hwhole⟩, hgroup]

/-- GRAY.24 on a buffer that GRAY.24 gave changes no byte: its whole groups are gray pixels already. -/
theorem grayWalk24_twice_read {off len : Nat} {m m' n : Memory} (h : grayWalk24 off len m = some m')
    (hn : grayWalk24 off len m' = some n) (j : Nat) : n.read j = m'.read j := by
  rw [grayWalk24_read hn]
  split
  case isTrue hj =>
    obtain ⟨hoff, hwhole⟩ := hj
    obtain ⟨-, hle, hlt⟩ := groupStart_bounds hoff
    have hgray {c : Nat} := grayWalk24_read_group (c := c) h hoff hwhole
    rw [hgray hle hlt]
    exact averageAt_of_alike (hgray (by omega) (by omega)) (hgray (by omega) (by omega)) (hgray (by omega) (by omega))
  case isFalse => rfl

/-- Settles O32: the walk completes, since the bytes of each whole group are written, and its reading is the closed
form. -/
theorem grayTwentyFourClosedForm : Obligations.GrayTwentyFourClosedForm := by
  intro s ch off hch hs hw
  have hgroups (t : Nat) (ht : off + 3 * t + 2 < s.len.toNat) : s.buf.Written (off + 3 * t) (off + 3 * t + 3) :=
    fun a ha hta => hw a (by omega) (by omega) (by omega)
  obtain ⟨buf, hbuf⟩ := grayWalk24_completes hgroups
  refine ⟨buf, applyCommand_ready (operandCondition_depth24_none .gray hch) hs hbuf, ?_, fun j hj => ?_⟩
  · rintro j _ b0 b1 b2 hj rfl hwhole h0 h1 h2
    exact (grayWalk24_read hbuf j).trans ((if_pos ⟨hj, hwhole⟩).trans (averageAt_of_read h0 h1 h2))
  · exact (grayWalk24_read hbuf j).trans (if_neg hj)

/-- Settles O38: the next GRAY.24 reads the same offset, and its buffer, canonical like the first one's, reads like it
at every address. -/
theorem grayTwentyFourIsIdempotent : Obligations.GrayTwentyFourIsIdempotent := by
  intro s ch ch' off hch hch' hwf hoff h14 hw
  have hs : s.PixelsReady off := ⟨hwf, hoff, h14, hw⟩
  obtain ⟨buf, hbuf⟩ := IsTransform.gray24.completes hw
  have hnext := hs.completedWith .gray24 hbuf
  obtain ⟨n, hn⟩ := IsTransform.gray24.completes hnext.written
  have heq : n = buf := Memory.eq_of_read_eq (IsTransform.gray24.wf hnext.canonical hn) hnext.canonical
    (grayWalk24_twice_read hbuf hn)
  exact ⟨s.completedWith buf, applyCommand_ready (operandCondition_depth24_none .gray hch) hoff hbuf,
    applyCommand_ready (operandCondition_depth24_none .gray hch') hnext.offsetReady (heq ▸ hn)⟩

/-! ### WHITE.24 and BLACK.24 (44_depth24_whole R161, R162) -/

/-- Settles O33: both commands are a flood of the pixel array, with 255 and with 0. -/
theorem floodTwentyFourClosedForm : Obligations.FloodTwentyFourClosedForm := by
  intro s ch off hch hs
  exact ⟨applyCommand_flood .white 0xFF#8 hch hs, applyCommand_flood .black 0x00#8 hch hs⟩

end Sys2Proof.Machine

namespace Sys2Proof

/-! ### The depths that have no transform (45_unsupported_depths R170 to R173) -/

theorem decode_unnamedDepth {w : Word} (hr : rsvField w = 0) (ho : opField w ≤ 4)
    (hdepth : depthField w ∉ [4, 8, 16, 24, 32]) : decode w = .error .unsupportedDepth := by
  obtain ⟨op, -, hdec⟩ := decode_apply hr ho
  obtain ⟨hnamed, -⟩ | ⟨-, herr⟩ := decodeApply_cases (depthField w) op (chField w)
  · exact absurd hnamed hdepth
  · exact hdec.trans herr

/-- Settles O9: a word that matches a row is INSPECT's or has a named depth. -/
theorem unnamedDepthMatchesNoRow : Obligations.UnnamedDepthMatchesNoRow := by
  intro w hr ho hdepth
  refine ⟨fun r hmem => Bool.eq_false_iff.2 fun hmatch => ?_, decode_unnamedDepth hr ho hdepth⟩
  obtain ⟨-, h5 | ⟨-, hnamed⟩⟩ := (opcodeTable_match w).1 ⟨r, hmem, hmatch⟩
  · omega
  · exact hdepth hnamed

end Sys2Proof

namespace Sys2Proof.Machine

/-- At a depth other than 4 and 24 the first operand check ends the command, before CH, LEN or BUF is looked at. -/
theorem applyUnoffered_otherDepth {depth : Nat} (h4 : depth ≠ 4) (h24 : depth ≠ 24) (op : Operation) (ch : Nat)
    (s : State) : applyUnoffered depth op ch s = .next (s.endCommand .unsupportedDepth) := by
  unfold applyUnoffered
  rw [operandCondition_other h4 h24]
  rfl

/-- Settles O20: each of the three depths is neither 4 nor 24, so its five rows end alike. -/
theorem unsupportedDepthRowsRaiseUnsupportedDepth : Obligations.UnsupportedDepthRowsRaiseUnsupportedDepth := by
  intro s ch
  have row8 (op : Operation) := applyUnoffered_otherDepth (depth := 8) (by decide) (by decide) op ch s
  have row16 (op : Operation) := applyUnoffered_otherDepth (depth := 16) (by decide) (by decide) op ch s
  have row32 (op : Operation) := applyUnoffered_otherDepth (depth := 32) (by decide) (by decide) op ch s
  exact ⟨row8 .filter, row8 .darken, row8 .gray, row8 .white, row8 .black,
    row16 .filter, row16 .darken, row16 .gray, row16 .white, row16 .black,
    row32 .filter, row32 .darken, row32 .gray, row32 .white, row32 .black⟩

end Sys2Proof.Machine

namespace Sys2Proof.Machine

/-! ### The code in STATUS after a command (30_encoding R85, 60_exceptions R180, R186) -/

/-- A rejected word reports the condition of its rejection, whatever LEN is. -/
theorem reportedCode_of_reject {w : Word} {reject : DecodeReject} (h : decode w = .error reject) (len : Nat) :
    reportedCode w len = conditionOfReject reject := by
  cases reject with
  | illegalCommand => exact reportedCode_illegal (decode_illegal_iff.1 h) len
  | unsupportedDepth =>
    have hill : ¬(rsvField w ≠ 0 ∨ 6 ≤ opField w) := fun hill => by cases h.symm.trans (decode_illegal hill)
    have hr : rsvField w = 0 := by omega
    have h5 : opField w ≠ 5 := fun h5 => by cases h.symm.trans (decode_inspect hr h5)
    obtain ⟨op, hop, hdec⟩ := decode_apply hr (by omega)
    obtain ⟨_, i, hi, _⟩ | ⟨hdepth, _⟩ := decodeApply_cases (depthField w) op (chField w)
    · cases h.symm.trans (hdec.trans hi)
    · simp only [List.mem_cons, List.not_mem_nil, or_false, not_or] at hdepth
      obtain ⟨h4, _, _, h24, _⟩ := hdepth
      rw [reportedCode_apply hr hop, operandCondition_other h4 h24]
      rfl

/-- A command that answers a next state ends with the code its word reports. -/
theorem exec_next_status {w : Word} {i : Instr} {s t : State} (hdec : decode w = .ok i) (h : exec i s = .next t) :
    t.status = ⟨reportedCode w s.len.toNat, false⟩ := by
  obtain ⟨hr, hch, hdepth, hop⟩ := decode_fields hdec
  by_cases hi : ∃ ch depth, i = .inspect ch depth
  · obtain ⟨ch, depth, rfl⟩ := hi
    rw [reportedCode_inspect hr hop.symm]
    obtain ⟨hlen, rfl⟩ | ⟨hlen, _, _, _, rfl⟩ := execInspect_next (ch := ch) (depth := depth) h
    · rw [if_pos hlen]; rfl
    · rw [if_neg (by omega)]; rfl
  · have hcode : (operationOf i).code = opField w :=
      (i.inspect_or_decodeApply.resolve_left hi).1.symm.trans hop
    rw [exec_apply fun ch depth heq => hi ⟨ch, depth, heq⟩] at h
    rw [reportedCode_apply hr hcode, ← hdepth, ← hch]
    obtain ⟨c, hc, rfl⟩ | ⟨hc, hlen, rfl⟩ | ⟨hc, _, _, ⟨hlen, _⟩, _, rfl⟩ := applyCommand_next h
    · rw [hc]; rfl
    · rw [hc, if_pos hlen]; rfl
    · rw [hc, if_neg (by omega)]; rfl

theorem runCommand_next_status {s t : State} (h : runCommand s = .next t) :
    t.status = ⟨reportedCode s.cmd s.len.toNat, false⟩ := by
  obtain ⟨_, i, hdec, hexec⟩ | ⟨reject, hdec, rfl⟩ := runCommand_next h
  · exact exec_next_status hdec hexec
  · rw [reportedCode_of_reject hdec]; rfl

/-- Settles O14: a word that reports a condition ends with it, and any next state holds the reported code. -/
theorem reportedCodeFollowsThePriority : Obligations.ReportedCodeFollowsThePriority := by
  intro s w rest hoffer hcap
  rw [hoffer.step_eq]
  exact ⟨fun hcond => runCommand_reportedCode (s := (s.take rest).acceptCommand w) hcap hcond,
    fun hok t h => (runCommand_next_status h).trans (congrArg (Status.mk · false) hok)⟩

/-- Settles O8: the word reports UnsupportedDepth, because the depth is the first operand check. -/
theorem depthNeitherFourNorTwentyFourRaisesUnsupportedDepth :
    Obligations.DepthNeitherFourNorTwentyFourRaisesUnsupportedDepth := by
  intro s w rest hoffer hcap hr ho h4 h24
  have hcode : reportedCode w s.len.toNat = .unsupportedDepth := by
    obtain ⟨op, hop, _⟩ := decode_apply hr ho
    rw [reportedCode_apply hr hop, operandCondition_other h4 h24]
    rfl
  have hstep := (reportedCodeFollowsThePriority s w rest hoffer (.inl hcap)).1 (by simp [hcode])
  rw [hstep, hcode]
  exact ⟨rfl, endsWith_endCommand ((s.take rest).acceptCommand w) .unsupportedDepth⟩

/-! ### What a raised condition leaves unchanged (60_exceptions R187) -/

/-- Of the three ways a command ends, only the raised condition writes a code other than OK. -/
theorem exec_eq_endedWith {i : Instr} {s t : State} (h : exec i s = .next t) (hcode : t.status.code ≠ .ok) :
    t = s.endedWith t.status.code := by
  obtain ⟨_, _, rfl⟩ | ⟨_, _, _, _, _, _, _, rfl⟩ | ⟨_, _, _, _, _, _, rfl⟩ := exec_next h
  · rfl
  · exact absurd rfl hcode
  · exact absurd rfl hcode

/-- Settles O15: a decoded word runs its command, and a rejected word only raises its condition. -/
theorem raisedConditionChangesNothingElse : Obligations.RaisedConditionChangesNothingElse := by
  refine ⟨fun _ _ _ => exec_eq_endedWith, fun s t h hcode => ?_⟩
  obtain ⟨_, _, _, hexec⟩ | ⟨_, _, rfl⟩ := runCommand_next h
  · exact exec_eq_endedWith hexec hcode
  · rfl

/-! ### The conditions a command's operands and LEN raise (60_exceptions R181, R183, R184) -/

/-- An APPLY command whose operands pass their checks needs the header. -/
theorem applyCommand_endsWith_truncatedHeader {depth : Nat} {op : Operation} {ch : Nat}
    {T : Nat → Nat → Memory → Option Memory} {s : State} (hc : operandCondition depth op ch = none)
    (hlen : s.len.toNat < hdrMin) : EndsWith (applyCommand depth op ch T s) s .truncatedHeader := by
  rw [applyCommand_short hc hlen]
  exact endsWith_endCommand s .truncatedHeader

/-- Settles O17: the length check of INSPECT is its first, that of the seven transforms follows valid operands. -/
theorem shortBufferRaisesTruncatedHeader : Obligations.ShortBufferRaisesTruncatedHeader := by
  intro s ch depth hlen
  refine ⟨rfl, ?_, fun hch => ?_, fun hch => ?_⟩
  · rw [show exec (.inspect ch depth) s = .next (s.endCommand .truncatedHeader) from withLength_short hlen _]
    exact endsWith_endCommand s .truncatedHeader
  · exact ⟨applyCommand_endsWith_truncatedHeader (operandCondition_depth4_none (.inl rfl) hch) hlen,
      applyCommand_endsWith_truncatedHeader (operandCondition_depth4_none (.inr rfl) hch) hlen⟩
  · have short (op : Operation) (T) : EndsWith (applyCommand 24 op ch T s) s .truncatedHeader :=
      applyCommand_endsWith_truncatedHeader (operandCondition_depth24_none op hch) hlen
    exact ⟨short .filter _, short .darken _, short .gray _, short .white _, short .black _⟩

/-- An operand condition ends an APPLY command before LEN or BUF is looked at. -/
theorem applyCommand_endsWith_operandCondition {depth : Nat} {op : Operation} {ch : Nat}
    {T : Nat → Nat → Memory → Option Memory} {c : Code} (hc : operandCondition depth op ch = some c) (s : State) :
    EndsWith (applyCommand depth op ch T s) s c := by
  rw [applyCommand_condition hc]
  exact endsWith_endCommand s c

theorem applyUnoffered_endsWith_operandCondition {depth : Nat} {op : Operation} {ch : Nat} {c : Code}
    (hc : operandCondition depth op ch = some c) (s : State) : EndsWith (applyUnoffered depth op ch s) s c := by
  rw [applyUnoffered_eq (fun _ _ m => some m) (by simp [hc])]
  exact applyCommand_endsWith_operandCondition hc s

/-- Settles O18: the channel check comes before the check of the operation. -/
theorem invalidChannelIsRaisedWhateverTheOperation : Obligations.InvalidChannelIsRaisedWhateverTheOperation := by
  refine ⟨rfl, fun s ch hch => ?_, fun s ch hch => ?_⟩
  · have invalid (op : Operation) : operandCondition 4 op ch = some .invalidChannel := by
      rw [operandCondition_depth4, if_neg (by omega)]
    have offered (op : Operation) (T) : EndsWith (applyCommand 4 op ch T s) s .invalidChannel :=
      applyCommand_endsWith_operandCondition (invalid op) s
    have unoffered (op : Operation) := applyUnoffered_endsWith_operandCondition (invalid op) s
    exact ⟨offered .filter _, offered .darken _, unoffered .gray, unoffered .white, unoffered .black⟩
  · have invalid (op : Operation) (T) := applyCommand_depth24_invalidChannel op T s hch
    exact ⟨invalid .filter _, invalid .darken _, invalid .gray _, invalid .white _, invalid .black _⟩

/-- Settles O19: depth 4 offers FILTER and DARKEN only. -/
theorem grayWhiteBlackAtDepthFourRaiseUnsupportedOperation :
    Obligations.GrayWhiteBlackAtDepthFourRaiseUnsupportedOperation := by
  intro s ch hch
  have unoffered (op : Operation) (hop : ¬(op = .filter ∨ op = .darken)) :
      EndsWith (applyUnoffered 4 op ch s) s .unsupportedOperation := by
    refine applyUnoffered_endsWith_operandCondition ?_ s
    rw [operandCondition_depth4, if_pos hch, if_neg hop]
  exact ⟨rfl, unoffered .gray (by decide), unoffered .white (by decide), unoffered .black (by decide)⟩

/-! ### Where a command has no next state (60_exceptions R191, 10_state R37, 70_reset_and_hazards R216) -/

/-- The outcome of a command started in `s`, with the cause of each refusal; a fault is none of them. -/
inductive CommandOutcome (s : State) : Host.Outcome State Fault Refusal → Prop where
  | next (t : State) : CommandOutcome s (.next t)
  | lenBeyondCapacity (h : s.cap.toNat < s.len.toNat) : CommandOutcome s (.refused .lenBeyondCapacity)
  | unwrittenByte {a : Nat} (ha : a < s.len.toNat) (hr : s.buf.read a = none) :
    CommandOutcome s (.refused .unwrittenByte)

theorem Memory.exists_unwritten {m : Memory} {lo hi : Nat} (h : ¬m.Written lo hi) : ∃ a, a < hi ∧ m.read a = none := by
  simp only [Memory.Written, not_forall, Bool.not_eq_true, Option.isSome_eq_false_iff, Option.isNone_iff_eq_none] at h
  obtain ⟨a, hhi, _, hr⟩ := h
  exact ⟨a, hhi, hr⟩

/-- A refusal of a range below LEN that is not all written. -/
theorem CommandOutcome.of_not_written {s : State} {lo hi : Nat} (h : ¬s.buf.Written lo hi) (hlen : hi ≤ s.len.toNat) :
    CommandOutcome s (.refused .unwrittenByte) := by
  obtain ⟨a, ha, hr⟩ := Memory.exists_unwritten h
  exact .unwrittenByte (Nat.lt_of_lt_of_le ha hlen) hr

/-- The checks before the body add a condition, which is a next state, and the refusal of LEN above CAP. -/
theorem withLength_outcome {s : State} {body : Host.Outcome State Fault Refusal}
    (hbody : hdrMin ≤ s.len.toNat → CommandOutcome s body) : CommandOutcome s (withLength s body) := by
  by_cases hshort : s.len.toNat < hdrMin
  · rw [withLength_short hshort]
    exact .next _
  · have hmin : hdrMin ≤ s.len.toNat := Nat.le_of_not_lt hshort
    by_cases hcap : s.cap.toNat < s.len.toNat
    · rw [withLength, if_neg hshort, withinCapacity_refused hcap]
      exact .lenBeyondCapacity hcap
    · rw [withLength_ready hmin (Nat.le_of_not_lt hcap)]
      exact hbody hmin

/-- INSPECT reads bytes 2 to 29. -/
theorem execInspect_outcome (ch depth : Nat) (s : State) : CommandOutcome s (execInspect ch depth s) := by
  refine withLength_outcome fun hmin => ?_
  split
  · rename_i hnone
    refine .of_not_written (lo := 2) (hi := 30) (fun hw => ?_) (Nat.le_trans (by decide) hmin)
    obtain ⟨hd, hhd⟩ := readHeader_isSome hw
    simp [hhd] at hnone
  · exact .next _

/-- A transform reads the offset field and the pixel array, all below LEN. -/
theorem applyTransform_outcome {T : Nat → Nat → Memory → Option Memory} (hT : IsTransform T) (s : State) :
    CommandOutcome s (applyTransform T s) := by
  refine withLength_outcome fun hmin => ?_
  split
  · rename_i hnone
    refine .of_not_written (lo := 10) (hi := 14) (fun hw => ?_) (Nat.le_trans (by decide) hmin)
    obtain ⟨off, hoff⟩ := readOffset_isSome hw
    simp [hoff] at hnone
  · rename_i off _
    split
    · rename_i hnone
      refine .of_not_written (lo := off) (fun hw => ?_) (Nat.le_refl s.len.toNat)
      obtain ⟨buf, hbuf⟩ := hT.completes hw
      simp [hbuf] at hnone
    · exact .next _

theorem exec_outcome (i : Instr) (s : State) : CommandOutcome s (exec i s) := by
  by_cases hi : ∃ ch depth, i = .inspect ch depth
  · obtain ⟨ch, depth, rfl⟩ := hi
    exact execInspect_outcome ch depth s
  · have hne : ∀ ch depth, i ≠ .inspect ch depth := fun ch depth heq => hi ⟨ch, depth, heq⟩
    rw [exec_apply hne, applyCommand]
    split
    · exact .next _
    · rename_i hc
      exact applyTransform_outcome (transformOf_isTransform hne hc) s

/-- Settles O21: a fault is no outcome of a command, and each refusal has its cause. -/
theorem commandsNeverFault : Obligations.CommandsNeverFault := by
  refine ⟨fun i s f h => ?_, fun i s r h => ?_⟩
  · nomatch h ▸ exec_outcome i s
  · match h ▸ exec_outcome i s with
    | .lenBeyondCapacity hcap => exact .inl ⟨rfl, hcap⟩
    | .unwrittenByte ha hr => exact .inr ⟨rfl, _, ha, hr⟩

/-! ### No command without a write of CMD (60_exceptions R194) -/

/-- Settles O11: the host list is empty before the step and after it. -/
theorem idleBlockWithoutAccessStaysAsItIs : Obligations.IdleBlockWithoutAccessStaysAsItIs := by
  intro s hidle hhost
  rw [step_idle hidle hhost, ← hhost]
  rfl

end Sys2Proof.Machine

namespace Sys2Proof.Machine

/-! ### BUSY falls in the step that runs the command (70_reset_and_hazards R219, R220) -/

theorem exec_idle_done {i : Instr} {s t : State} (h : exec i s = .next t) : t.status.busy = false ∧ t.done = true := by
  obtain ⟨_, _, rfl⟩ | ⟨_, _, _, _, _, _, _, rfl⟩ | ⟨_, _, _, _, _, _, rfl⟩ := exec_next h
  · exact ⟨rfl, rfl⟩
  · exact ⟨rfl, rfl⟩
  · exact ⟨rfl, rfl⟩

theorem runCommand_idle_done {s t : State} (h : runCommand s = .next t) : t.status.busy = false ∧ t.done = true := by
  obtain ⟨_, _, _, hexec⟩ | ⟨_, _, rfl⟩ := runCommand_next h
  · exact exec_idle_done hexec
  · exact ⟨rfl, rfl⟩

/-- The write of CMD raises BUSY and its command drops it; no other access touches BUSY but reset, which clears it. -/
theorem hostAccess_idle {move : HostMove} {s t : State} (hs : s.status.busy = false) (h : hostAccess move s = .next t) :
    t.status.busy = false := by
  obtain ⟨_, _, hrun⟩ | ⟨_, _, rfl⟩ | ⟨_, _, _, _, _, rfl⟩ | ⟨_, _, rfl⟩ | ⟨_, _, _, _, rfl⟩ |
    ⟨_, _, _, _, _, rfl⟩ | ⟨_, rfl⟩ := hostAccess_next h
  -- the writes of CMD, of LEN and of any other register, a register read, a byte written, a byte read, reset
  · exact (runCommand_idle_done hrun).1
  · exact hs
  · exact hs
  · exact hs
  · exact hs
  · exact hs
  · rfl

/-- Settles O16: each way a command ends drops BUSY and raises done, and an idle block without a command stays idle. -/
theorem everyStepEndsWithTheBlockIdle : Obligations.EveryStepEndsWithTheBlockIdle := by
  refine ⟨fun s t h => ?_, fun _ _ => runCommand_idle_done⟩
  obtain ⟨_, hrun⟩ | ⟨hidle, _, rfl⟩ | ⟨hidle, _, rest, _, hacc⟩ := step_next h
  · exact (runCommand_idle_done hrun).1
  · exact hidle
  · exact hostAccess_idle (s := s.take rest) hidle hacc

/-! ### A host that keeps the rules (70_reset_and_hazards R213, R215, R216) -/

/-- On a loaded buffer neither cause of a refusal is there: LEN is within CAP, and every byte below it is written. -/
theorem CommandOutcome.eq_next {s : State} {o : Host.Outcome State Fault Refusal} (h : CommandOutcome s o)
    (hs : s.Loaded) : ∃ t, o = .next t := by
  obtain ⟨hcap, hwritten⟩ := hs
  cases h with
  | next t => exact ⟨t, rfl⟩
  | lenBeyondCapacity hbeyond => omega
  | unwrittenByte ha hnone => simpa [hnone] using hwritten _ ha (Nat.zero_le _)

/-- The word in CMD runs to its end on a loaded buffer, an illegal word on any (30_encoding R88). -/
theorem runCommand_eq_next {s : State} (hs : rsvField s.cmd = 0 → opField s.cmd < 6 → s.Loaded) :
    ∃ t, runCommand s = .next t := by
  by_cases hill : rsvField s.cmd ≠ 0 ∨ 6 ≤ opField s.cmd
  · exact ⟨_, runCommand_of_illegal (decode_illegal hill)⟩
  have hloaded : s.Loaded := hs (by omega) (by omega)
  cases hdec : decode s.cmd with
  | error reject => exact ⟨_, runCommand_of_error hloaded.1 hdec⟩
  | ok i =>
    rw [runCommand_of_ok hloaded.1 hdec]
    exact (exec_outcome i s).eq_next hloaded

theorem HostMove.legal_take (move : HostMove) (s : State) (rest : List HostMove) :
    move.legal (s.take rest) ↔ move.legal s := by
  cases move <;> rfl

theorem HostMove.legal.hostAccess_eq_next {move : HostMove} {s : State} (h : move.legal s) :
    ∃ t, hostAccess move s = .next t := by
  cases move with
  | regWrite offset size w =>
    obtain ⟨hdef, hcmd, _⟩ := h
    obtain ⟨rfl, halign⟩ := accessDefined_iff.1 hdef
    rw [hostAccess_regWrite halign]
    by_cases hc : offset = cmdOffset
    · subst hc
      exact runCommand_eq_next (s := s.acceptCommand w) (hcmd rfl)
    by_cases hl : offset = lenOffset
    · subst hl
      exact ⟨_, writeRegister_len w s⟩
    · exact ⟨_, writeRegister_ignored hc hl w s⟩
  | regRead offset size =>
    obtain ⟨rfl, halign⟩ := accessDefined_iff.1 h
    exact ⟨_, hostAccess_regRead halign s⟩
  | bufWrite a v => exact ⟨_, hostAccess_bufWrite h v⟩
  | bufRead a =>
    obtain ⟨ha, hsome⟩ := h
    obtain ⟨b, hb⟩ := Option.isSome_iff_exists.1 hsome
    exact ⟨_, hostAccess_bufRead ha hb⟩
  | reset => exact ⟨_, rfl⟩

/-! ### What the steps of such a run keep: LEN within CAP, and the written bytes below LEN -/

theorem runCommand_len_le_cap {s t : State} (hs : s.len.toNat ≤ s.cap.toNat) (h : runCommand s = .next t) :
    t.len.toNat ≤ t.cap.toNat := by
  rw [(runCommand_cmd_len h).2, runCommand_cap h]
  exact hs

/-- Only a write of LEN raises LEN, and a legal one keeps it within CAP. -/
theorem hostAccess_len_le_cap {move : HostMove} {s t : State} (hs : s.len.toNat ≤ s.cap.toNat) (hlegal : move.legal s)
    (h : hostAccess move s = .next t) : t.len.toNat ≤ t.cap.toNat := by
  obtain ⟨w, _, hrun⟩ | ⟨_, rfl, rfl⟩ | ⟨_, _, _, _, _, rfl⟩ | ⟨_, _, rfl⟩ | ⟨_, _, _, _, rfl⟩ |
    ⟨_, _, _, _, _, rfl⟩ | ⟨_, rfl⟩ := hostAccess_next h
  -- the writes of CMD, of LEN and of any other register, a register read, a byte written, a byte read, reset
  · exact runCommand_len_le_cap (s := s.acceptCommand w) hs hrun
  · obtain ⟨_, _, hcap⟩ := hlegal
    exact hcap rfl
  · exact hs
  · exact hs
  · exact hs
  · exact hs
  · exact Nat.zero_le _

theorem exec_keeps_written {i : Instr} {s t : State} (h : exec i s = .next t) {a : Nat}
    (ha : (s.buf.read a).isSome = true) : (t.buf.read a).isSome = true := by
  obtain ⟨_, _, rfl⟩ | ⟨_, _, _, _, _, _, _, rfl⟩ | ⟨_, hT, _, _, _, hbuf, rfl⟩ := exec_next h
  · exact ha
  · exact ha
  · exact hT.keeps (P := fun m => (m.read a).isSome = true) (fun _ c v _ => Memory.isSome_read_write c v) ha hbuf

theorem runCommand_keeps_written {s t : State} (h : runCommand s = .next t) {a : Nat}
    (ha : (s.buf.read a).isSome = true) : (t.buf.read a).isSome = true := by
  obtain ⟨_, _, _, hexec⟩ | ⟨_, _, rfl⟩ := runCommand_next h
  · exact exec_keeps_written hexec ha
  · exact ha

/-- Reset forgets BUF, but leaves no byte below LEN. -/
theorem hostAccess_keeps_written {move : HostMove} {s t : State} (h : hostAccess move s = .next t) {a : Nat}
    (hlen : a < t.len.toNat) (ha : (s.buf.read a).isSome = true) : (t.buf.read a).isSome = true := by
  obtain ⟨w, _, hrun⟩ | ⟨_, _, rfl⟩ | ⟨_, _, _, _, _, rfl⟩ | ⟨_, _, rfl⟩ | ⟨c, v, _, _, rfl⟩ |
    ⟨_, _, _, _, _, rfl⟩ | ⟨_, rfl⟩ := hostAccess_next h
  -- the writes of CMD, of LEN and of any other register, a register read, a byte written, a byte read, reset
  · exact runCommand_keeps_written (s := s.acceptCommand w) hrun ha
  · exact ha
  · exact ha
  · exact ha
  · exact Memory.isSome_read_write c v ha
  · exact ha
  · exact absurd hlen (Nat.not_lt_zero a)

/-- Settles O57: a command on a loaded buffer and a legal access each answer a next state, which keeps LEN within CAP
and the written bytes below LEN; that it is idle is `everyStepEndsWithTheBlockIdle`. -/
theorem hostThatKeepsTheRulesNeverStopsTheMachine : Obligations.HostThatKeepsTheRulesNeverStopsTheMachine := by
  intro s hlen hloaded hlegal
  suffices hstep : ∃ t, step s = .next t ∧ t.len.toNat ≤ t.cap.toNat ∧
      ∀ a, a < t.len.toNat → (s.buf.read a).isSome = true → (t.buf.read a).isSome = true by
    obtain ⟨t, ht, hcap, hkeeps⟩ := hstep
    exact ⟨t, ht, hcap, everyStepEndsWithTheBlockIdle.1 s t ht, hkeeps⟩
  cases hbusy : s.status.busy with
  | true =>
    have hready : (s.take s.host).Loaded := hloaded hbusy
    obtain ⟨t, hrun⟩ := runCommand_eq_next fun _ _ => hready
    exact ⟨t, (step_busy hbusy).trans hrun, runCommand_len_le_cap hready.1 hrun,
      fun _ _ => runCommand_keeps_written hrun⟩
  | false =>
    cases hhost : s.host with
    | nil => exact ⟨_, step_idle hbusy hhost, hlen, fun _ _ ha => ha⟩
    | cons move rest =>
      have hmove : move.legal (s.take rest) := (move.legal_take s rest).2 (hlegal hbusy move rest hhost)
      obtain ⟨t, hacc⟩ := hmove.hostAccess_eq_next
      exact ⟨t, (step_host hbusy hhost).trans hacc, hostAccess_len_le_cap (s := s.take rest) hlen hmove hacc,
        fun _ => hostAccess_keeps_written hacc⟩

/-! ### Hazards: LEN above CAP, and a block found busy (70_reset_and_hazards R215, R216) -/

/-- Settles O10: a word that is a command decodes to something other than IllegalCommand, so the capacity is checked. -/
theorem lenBeyondCapacityIsRefused : Obligations.LenBeyondCapacityIsRefused := by
  intro s w rest hoffer hbeyond hr ho
  have hcommand : decode w ≠ .error .illegalCommand := mt decode_illegal_iff.1 (by omega)
  rw [hoffer.step_eq]
  exact runCommand_refused (s := (s.take rest).acceptCommand w) hbeyond hcommand

/-- Settles O12: the step of a busy block is `runCommand`, with the host list put back as it was. -/
theorem busyBlockEndsItsCommandBeforeAnyAccess : Obligations.BusyBlockEndsItsCommandBeforeAnyAccess := by
  intro s i hbusy hlen hdec
  rw [step_busy hbusy]
  exact runCommand_of_ok (s := s.take s.host) hlen hdec

/-! ### Reset (70_reset_and_hazards R210, R211) -/

/-- Every branch of the register map reads a register that is 0, or no register. -/
theorem State.resetFor_readRegister (cap : Word) (offset : Nat) : (State.resetFor cap).readRegister offset = 0#32 := by
  have hstatus : Status.word ⟨.ok, false⟩ = 0#32 := rfl
  simp [State.readRegister, hstatus]

/-- Settles O51: the fields of the reset state, the register map on them, and an empty list of written bytes. -/
theorem resetLeavesEveryRegisterZero : Obligations.ResetLeavesEveryRegisterZero :=
  ⟨fun cap offset _ => ⟨rfl, rfl, rfl, rfl, rfl, rfl, rfl, rfl, rfl, State.resetFor_readRegister cap offset, rfl⟩,
    Config.resetCapacity, rfl⟩

/-- Settles O53: the reset input is an access like any other to the idle block, and answers `State.afterReset`. -/
theorem resetInputBetweenCommandsGivesTheResetState : Obligations.ResetInputBetweenCommandsGivesTheResetState :=
  fun _ _ hidle hhost => step_host hidle hhost

end Sys2Proof.Machine
